-- ==== Sys2Proof/Word.lean ====
section
/-! DEFINITION. The word types of the unit (spec/00_scope.md R15): unsigned values of a stated width, bit 0 the least
significant. The arithmetic primitives of R16 are the operators of `BitVec`: `+` and `-` wrap at the width (add32, sub32,
add8, sub8), `<<<` and `>>>` are shl32 and the logical shr32, `^^^` is xor, and `setWidth` to a wider width is zext. -/

namespace Sys2Proof

/-- A byte, width 8 (R15). -/
abbrev Byte := BitVec 8

/-- A word, width 32 (R15). -/
abbrev Word := BitVec 32

/-- An offset into the flat window the host sees, 22 bits (spec/20_memory.md R61, R62). -/
abbrev Offset := BitVec 22

end Sys2Proof
end

