-- ==== Sys2Proof/Syntax.lean ====
section
/-! DEFINITION. The commands of the unit (one constructor per row of spec/opcode_table.json), the names of its registers,
what the host can do to it, and the lines of a host script (spec/30_encoding.md R92, R98; spec/10_state.md R20;
spec/20_memory.md R62). -/

namespace Sys2Proof

/-- The twelve commands (R92). `nullin` is the one operand a command word carries, the NULLIN bit (R93): true is "the input
is absent". -/
inductive Instr where
  | nop
  | blkenc
  | blkdec
  | bytenc
  | bytdec
  | pldenc
  | plddec
  | b64enc
  | b64dec
  | encode (nullin : Bool)
  | decode (nullin : Bool)
  | zeroize
deriving DecidableEq, Repr

/-- The fourteen registers of the space REG (R20). -/
inductive Reg where
  | cmd | status | inlen | outlen | klen | idx | sbyte | cap | v0 | v1 | k0 | k1 | k2 | k3
deriving DecidableEq, Repr

/-- What reaches the unit from outside, one at a time: HostRead(a, n) and HostWrite(a, n, v) with `n` the width in bytes and
`v` a value of 8n bits (R62), and a reset (spec/70_reset_and_hazards.md R240). -/
inductive HostEvent where
  | read (a : Offset) (n : Nat)
  | write (a : Offset) (n : Nat) (v : Nat)
  | reset
deriving DecidableEq, Repr

/-- What an access that returns ok gives back to the host (R62, R68): nothing for a write, a value of 8n bits for a read. -/
inductive Reply where
  | done
  | byte (v : Byte)
  | word (v : Word)
deriving DecidableEq, Repr

/-- The lines of a host script (R98). `command` is both the line <MNEMONIC> and the lines ENCODE.N and DECODE.N. -/
inductive ScriptLine where
  | wr (r : Reg) (v : Word)
  | rd (r : Reg)
  | wrb (i : Nat) (v : Byte)
  | wrw (i : Nat) (v : Word)
  | rdb (i : Nat)
  | rdw (i : Nat)
  | command (i : Instr)
deriving DecidableEq, Repr

end Sys2Proof
end

