-- ==== Sys2Proof/WellFormed.lean ====
section
/-! DEFINITION. Which terms of the syntax the spec gives a meaning to. A command has no field that can be out of range: the
one operand is a single bit (spec/30_encoding.md R93), and it stands only in the two commands that have it, so every term of
`Instr` is well formed. A host event and a script line have fields that can be out of range. -/

namespace Sys2Proof

/-- Every term of `Instr` is one of the fourteen legal commands of R94. -/
def Instr.wellFormed : Instr → Bool
  | .nop | .blkenc | .blkdec | .bytenc | .bytdec | .pldenc | .plddec | .b64enc | .b64dec => true
  | .encode _ | .decode _ | .zeroize => true

/-- The value of HostWrite(a, n, v) is a value of 8n bits (spec/20_memory.md R62). -/
def HostEvent.wellFormed : HostEvent → Bool
  | .read _ _ => true
  | .write _ n v => v < 2 ^ (8 * n)
  | .reset => true

/-- A line names a byte inside the window its space has in the map (spec/20_memory.md R61: 2^20 offsets for INBUF, 2^21 for
OUTBUF), and a word line has `i mod 4 = 0` (spec/30_encoding.md R98). -/
def ScriptLine.wellFormed : ScriptLine → Bool
  | .wr _ _ | .rd _ => true
  | .wrb i _ => i < 2 ^ 20
  | .wrw i _ => i < 2 ^ 20 && i % 4 == 0
  | .rdb i => i < 2 ^ 21
  | .rdw i => i < 2 ^ 21 && i % 4 == 0
  | .command i => i.wellFormed

end Sys2Proof
end

