-- ==== Sys2Proof/Decode.lean ====
section
/-! DEFINITION. The command word: fields, the decoder, total on all words and rejecting by name, the encoder, and the
match/mask table (spec/30_encoding.md R90 to R97). -/

namespace Sys2Proof

/-- Why a word is illegal, in the order in which R94 tests it. -/
inductive IllegalWord where
  | reservedBits    -- w[31:9] is not zero
  | unknownOpcode   -- w[7:0] is above 0x0B
  | nullinNotTaken  -- w[8] = 1 with an opcode other than ENCODE and DECODE
deriving DecidableEq, Repr

/-- The two outcomes of decoding a word (R94). -/
inductive Decoded where
  | command (i : Instr)
  | illegal (why : IllegalWord)
deriving DecidableEq, Repr

/-- OPC, bits [7:0] (R90). -/
def opcField (w : Word) : BitVec 8 := w.extractLsb' 0 8

/-- NULLIN, bit [8] (R90). -/
def nullinField (w : Word) : Bool := w.getLsbD 8

/-- RSV, bits [31:9] (R90). -/
def rsvField (w : Word) : BitVec 23 := w.extractLsb' 9 23

/-- The row of R92 for an opcode, with the NULLIN bit for the rows 0x09 and 0x0A. -/
def instrOfOpcode (opc : BitVec 8) (nullin : Bool) : Option Instr :=
  match opc.toNat with
  | 0x00 => some .nop
  | 0x01 => some .blkenc
  | 0x02 => some .blkdec
  | 0x03 => some .bytenc
  | 0x04 => some .bytdec
  | 0x05 => some .pldenc
  | 0x06 => some .plddec
  | 0x07 => some .b64enc
  | 0x08 => some .b64dec
  | 0x09 => some (.encode nullin)
  | 0x0A => some (.decode nullin)
  | 0x0B => some .zeroize
  | _ => none

/-- The commands that have the NULLIN field (R93). -/
def Instr.takesNullin : Instr → Bool
  | .encode _ | .decode _ => true
  | .nop | .blkenc | .blkdec | .bytenc | .bytdec | .pldenc | .plddec | .b64enc | .b64dec | .zeroize => false

/-- R94: total on all 2^32 words. -/
def decode (w : Word) : Decoded :=
  if rsvField w ≠ 0 then .illegal .reservedBits
  else
    match instrOfOpcode (opcField w) (nullinField w) with
    | none => .illegal .unknownOpcode
    | some i => if nullinField w && !i.takesNullin then .illegal .nullinNotTaken else .command i

/-- The opcode of a command (R92). -/
def Instr.opcode : Instr → BitVec 8
  | .nop => 0x00
  | .blkenc => 0x01
  | .blkdec => 0x02
  | .bytenc => 0x03
  | .bytdec => 0x04
  | .pldenc => 0x05
  | .plddec => 0x06
  | .b64enc => 0x07
  | .b64dec => 0x08
  | .encode _ => 0x09
  | .decode _ => 0x0A
  | .zeroize => 0x0B

/-- The NULLIN bit of a command: zero where the command does not have the field (R90, R93). -/
def Instr.nullinBit : Instr → BitVec 1
  | .encode b | .decode b => BitVec.ofBool b
  | .nop | .blkenc | .blkdec | .bytenc | .bytdec | .pldenc | .plddec | .b64enc | .b64dec | .zeroize => 0

/-- The word of a command: RSV = 0, NULLIN, OPC, from bit 31 down (R90). -/
def encode (i : Instr) : Word := (0 : BitVec 23) ++ i.nullinBit ++ i.opcode

/-- The mnemonic of a command, as the opcode table spells it. -/
def Instr.mnemonic : Instr → String
  | .nop => "NOP"
  | .blkenc => "BLKENC"
  | .blkdec => "BLKDEC"
  | .bytenc => "BYTENC"
  | .bytdec => "BYTDEC"
  | .pldenc => "PLDENC"
  | .plddec => "PLDDEC"
  | .b64enc => "B64ENC"
  | .b64dec => "B64DEC"
  | .encode _ => "ENCODE"
  | .decode _ => "DECODE"
  | .zeroize => "ZEROIZE"

/-- A row of the opcode table: a word `w` selects it when `w AND mask = matchWord` (R92). -/
structure OpcodeRow where
  mnemonic : String
  matchWord : Word
  mask : Word
deriving DecidableEq, Repr

/-- The twelve rows of R92. -/
def opcodeTable : List OpcodeRow :=
  [⟨"NOP", 0x00000000, 0xFFFFFFFF⟩, ⟨"BLKENC", 0x00000001, 0xFFFFFFFF⟩, ⟨"BLKDEC", 0x00000002, 0xFFFFFFFF⟩,
   ⟨"BYTENC", 0x00000003, 0xFFFFFFFF⟩, ⟨"BYTDEC", 0x00000004, 0xFFFFFFFF⟩, ⟨"PLDENC", 0x00000005, 0xFFFFFFFF⟩,
   ⟨"PLDDEC", 0x00000006, 0xFFFFFFFF⟩, ⟨"B64ENC", 0x00000007, 0xFFFFFFFF⟩, ⟨"B64DEC", 0x00000008, 0xFFFFFFFF⟩,
   ⟨"ENCODE", 0x00000009, 0xFFFFFEFF⟩, ⟨"DECODE", 0x0000000A, 0xFFFFFEFF⟩, ⟨"ZEROIZE", 0x0000000B, 0xFFFFFFFF⟩]

/-- Whether a word selects a row (R92). -/
def OpcodeRow.selects (r : OpcodeRow) (w : Word) : Bool := w &&& r.mask == r.matchWord

/-- The word a table row's bits stand for: `w` is taken as `nbits` bits, numbered from bit 0 of the one command word, and the
bits above are zero (log entry 13). -/
def tableWord (nbits w : Nat) : Word := BitVec.ofNat 32 (w % 2 ^ nbits)

/-- The command the decoder reads from a table row's word. -/
def decodeTableWord (nbits w : Nat) : Option Instr :=
  match decode (tableWord nbits w) with
  | .command i => some i
  | .illegal _ => none

end Sys2Proof
end

