-- ==== Sys2Proof/Config.lean ====
section
/-! DEFINITION. What one unit fixes and the spec leaves open: the two parameters TABLE and IN_CAP, and the contents of the
buffers after a reset. None of the constants here has a body, so a proof holds for every value of them. -/

namespace Sys2Proof

/-- The open parameters of a unit (spec/00_scope.md R9, R10; spec/10_state.md R39; spec/92_eei_decisions.md, "Parameters left
open"). DESIGN CHOICE (log entry 1): `capIndex` stands for IN_CAP = 4 * (capIndex + 1), so that every value of the type is a
legal capacity (a multiple of 4 from 4 to 2^20) and every legal capacity is a value. -/
structure Params where
  capIndex : Fin 262144
  table : Vector Byte 8
deriving DecidableEq, Repr, Inhabited

/-- The parameters of the unit that comes out of reset. Free: nothing can be proved of their value (log entry 1). -/
opaque Config.params : Params

/-- `Config.unspecifiedByte d i` is the byte at offset `i` of the `d`-th draw of buffer contents: what a byte of a buffer
holds after a reset until something writes it (spec/10_state.md R38, spec/93_implementation_defined.md U3). Free: any value,
under no law, the same until written (log entry 5). -/
opaque Config.unspecifiedByte : Nat → Nat → Byte

end Sys2Proof
end

