-- ==== Sys2Proof/Machine/State.lean ====
section
/-! DEFINITION. The state of the unit as plain data (spec/10_state.md), the ways a step can stop, and the state after
reset (R38). -/

namespace Sys2Proof.Machine

/-- The field STATUS.ERR: exactly the seven values 0 to 6 (spec/60_exceptions.md R210, spec/93 U6). -/
inductive ErrCode where
  | ok       -- 0, the command succeeded
  | absent   -- 1, ERR_ABSENT
  | keylen   -- 2, ERR_KEYLEN
  | len      -- 3, ERR_LEN
  | b64      -- 4, ERR_B64
  | utf8     -- 5, ERR_UTF8
  | illegal  -- 6, ERR_ILLEGAL
deriving DecidableEq, Repr

/-- The four key words K[0] to K[3] (R21). -/
structure Key where
  k0 : Word
  k1 : Word
  k2 : Word
  k3 : Word
deriving DecidableEq, Repr

/-- What the bytes that a buffer's list does not name read as. -/
inductive Fill where
  | unspecified (draw : Nat)  -- nothing has written them since the reset that made this draw (R38)
  | zero                      -- a command has set them to 0x00 (R31, R32)
deriving DecidableEq, Repr

/-- A byte buffer (INBUF R31, OUTBUF R32): the bytes listed by offset, and what the others read as. -/
structure Memory where
  fill : Fill
  cells : List Host.Cell
deriving DecidableEq, Repr

/-- Everything the unit holds, without its parameters (R39: "parameters of the model's step relation, not fields of its
state"): the registers of R20, the two buffers, and three fields that are the model's own: `draws` (log entry 5), `script` (log
entry 2), `replies` (log entry 3). -/
structure UnitState where
  err : ErrCode           -- STATUS.ERR (R28)
  inlen : Word            -- INLEN (R25)
  outlen : Word           -- OUTLEN (R27)
  klen : Word             -- KLEN (R26)
  idx : Word              -- IDX (R24)
  sbyte : Byte            -- SBYTE, bits [7:0] (R23)
  v0 : Word               -- V0 (R22)
  v1 : Word               -- V1 (R22)
  key : Key               -- K[0..3] (R21)
  inbuf : Memory          -- INBUF (R31)
  outbuf : Memory         -- OUTBUF (R32)
  draws : Nat             -- how many draws of unspecified buffer contents have been made
  script : List HostEvent -- the host events still to arrive, the next one first (spec/70 R255)
  replies : List Reply    -- what the unit has answered, the newest first (spec/20 R62)
deriving DecidableEq, Repr

/-- A unit's state together with the parameters of that unit, which nothing writes. The host's step has no argument for the
parameters, so they travel beside the state; `stepUnder` is the step relation that takes them as its argument (log entry 1). -/
structure State extends UnitState where
  params : Params         -- IN_CAP, which CAP reads (R30), and TABLE (R9)
deriving DecidableEq, Repr

/-- No command and no access stops the unit with a machine fault: a command that fails is a next state with a code in STATUS
("There are no exceptions, traps or interrupts in any other sense", spec/00_scope.md R18; log entry 9). -/
inductive Fault where
deriving DecidableEq, Repr

/-- Why a step has no next state. -/
inductive Refusal where
  /-- Raised by the dispatcher for a command that has no meaning in this model yet. Safe. -/
  | notModelled (mnemonic : String)
  /-- Raised by a host access that answers buserr: unmapped, misaligned, or of a width its space does not have
  (spec/20_memory.md R67, which asks a model for a refusal). No command raises it. Safe: no claim is proved of a host that
  makes such an access. -/
  | buserr
deriving DecidableEq, Repr

/-- The state right after reset (R38, spec/70 R240): registers zero, the buffers' bytes unspecified (draws 0 and 1), CAP
reading the unit's own IN_CAP, nothing pending from the host and nothing answered. -/
def State.reset : State where
  err := .ok
  inlen := 0
  outlen := 0
  klen := 0
  idx := 0
  sbyte := 0
  v0 := 0
  v1 := 0
  key := ⟨0, 0, 0, 0⟩
  inbuf := ⟨.unspecified 0, []⟩
  outbuf := ⟨.unspecified 1, []⟩
  params := Config.params
  draws := 2
  script := []
  replies := []

end Sys2Proof.Machine
end

