-- ==== Sys2Proof/Machine/Flags.lean ====
section
/-! DEFINITION. STATUS.ERR, the one flag of the unit (spec/10_state.md R28, spec/60_exceptions.md R210). -/

namespace Sys2Proof.Machine

/-- The number of a code (R210). -/
def ErrCode.number : ErrCode → BitVec 4
  | .ok => 0
  | .absent => 1
  | .keylen => 2
  | .len => 3
  | .b64 => 4
  | .utf8 => 5
  | .illegal => 6

/-- What STATUS reads: ERR in bits [3:0], the rest zero (R28). -/
def ErrCode.statusWord (e : ErrCode) : Word := (0 : BitVec 28) ++ e.number

/-- STATUS.ERR <- e. -/
def State.setErr (s : State) (e : ErrCode) : State := { s with err := e }

end Sys2Proof.Machine
end

