-- ==== Sys2Proof/Machine/Operands.lean ====
section
/-! DEFINITION. The fixed constants (spec/00_scope.md R8), byte and word packing (R17), and the operands a command takes from
fixed registers and parameters (spec/10_state.md R21, R37; spec/41_byte_cipher.md R130). -/

namespace Sys2Proof.Machine

/-- ROUNDS: rounds of the block cipher (R8). -/
def rounds : Nat := 32

/-- DELTA: the increment of `sum` per round (R8). -/
def delta : Word := 0x9E3779B9

/-- DSUM0: the first `sum` of a block decryption, (32 * DELTA) mod 2^32 (R8). -/
def dsum0 : Word := 0xC6EF3720

/-- BROUNDS: iterations of the byte cipher (R8). -/
def byteRounds : Nat := 32

/-- KEY_BYTES: the key length in bytes, with which KLEN is compared (R8, spec/10_state.md R26). -/
def keyBytes : Word := 16

/-- BLOCK_BYTES: the block length in bytes (R8). -/
def blockBytes : Nat := 8

/-- LE32 (R17): the first byte is bits [7:0]. -/
def le32 (b0 b1 b2 b3 : Byte) : Word := b3 ++ b2 ++ b1 ++ b0

/-- Byte `i` of BYTES32(w) (R17): bits [8i+7 : 8i]. -/
def byteOf (w : Word) (i : Nat) : Byte := w.extractLsb' (8 * i) 8

/-- BYTES32 (R17). -/
def bytes32 (w : Word) : List Byte := [byteOf w 0, byteOf w 1, byteOf w 2, byteOf w 3]

/-- K[i mod 4] (spec/41_byte_cipher.md R130). -/
def Key.word (k : Key) (i : Nat) : Word :=
  match i % 4 with
  | 0 => k.k0
  | 1 => k.k1
  | 2 => k.k2
  | _ => k.k3

/-- KEYBYTE(j), byte `j` of the 16-byte key (spec/10_state.md R21). -/
def Key.byte (k : Key) (j : Nat) : Byte := byteOf (k.word (j / 4)) (j % 4)

/-- TABLE[i mod 8] (spec/41_byte_cipher.md R130). -/
def tableByte (table : Vector Byte 8) (i : Nat) : Byte := table[i % 8]'(Nat.mod_lt i (by decide))

/-- IN_CAP: a multiple of 4 from 4 to 2^20 (R10; log entry 1). -/
def inCap (p : Params) : Nat := 4 * (p.capIndex.val + 1)

/-- OUT_CAP = 4 * ceil(IN_CAP / 3) (R10). -/
def outCap (p : Params) : Nat := 4 * ((inCap p + 2) / 3)

end Sys2Proof.Machine
end

