-- ==== Sys2Proof/Machine/Ops.lean ====
section
/-! DEFINITION. The shared operations over the buffers and the registers: bytes and words of a buffer, the input of a buffer
command, its result, the failure entry of R214 (this unit's exception: there is no return from it, R217), the illegal command
of R96, and reset (R240). -/

namespace Sys2Proof.Machine

/-! ### Buffers -/

/-- What the byte at offset `i` reads as when the list does not name it (log entry 5). -/
def Fill.byteAt : Fill → Nat → Byte
  | .unspecified d, i => Config.unspecifiedByte d i
  | .zero, _ => 0

/-- The value that an unlisted byte is known to have; none where the spec leaves it unspecified. -/
def Fill.known : Fill → Option Byte
  | .unspecified _ => none
  | .zero => some 0

/-- The byte listed at offset `i`. -/
def cellAt : List Host.Cell → Nat → Option Byte
  | [], _ => none
  | (a, v) :: rest, i => if a = i then some v else cellAt rest i

/-- List the byte `v` at offset `i`, in the place the rising order gives it. -/
def putCell : List Host.Cell → Nat → Byte → List Host.Cell
  | [], i, v => [(i, v)]
  | (a, w) :: rest, i, v =>
    if i < a then (i, v) :: (a, w) :: rest
    else if i = a then (i, v) :: rest
    else (a, w) :: putCell rest i v

/-- List no byte at offset `i`. -/
def dropCell : List Host.Cell → Nat → List Host.Cell
  | [], _ => []
  | (a, w) :: rest, i => if a = i then dropCell rest i else (a, w) :: dropCell rest i

/-- The byte at offset `i` of a buffer. -/
def Memory.get (m : Memory) (i : Nat) : Byte := (cellAt m.cells i).getD (m.fill.byteAt i)

/-- Write one byte; a byte that the unlisted bytes are known to have is not listed (log entry 6). -/
def Memory.set (m : Memory) (i : Nat) (v : Byte) : Memory :=
  if m.fill.known = some v then { m with cells := dropCell m.cells i }
  else { m with cells := putCell m.cells i v }

/-- The word at offsets i to i+3, LE32 of the four bytes (spec/20_memory.md R63, R68). -/
def Memory.getWord (m : Memory) (i : Nat) : Word := le32 (m.get i) (m.get (i + 1)) (m.get (i + 2)) (m.get (i + 3))

/-- Set the four bytes i to i+3 to BYTES32(w) (spec/20_memory.md R68). -/
def Memory.setWord (m : Memory) (i : Nat) (w : Word) : Memory :=
  (((m.set i (byteOf w 0)).set (i + 1) (byteOf w 1)).set (i + 2) (byteOf w 2)).set (i + 3) (byteOf w 3)

/-- MemRead(m, 0, n) (spec/00_scope.md R18): the first `n` bytes, lowest offset first. -/
def Memory.read (m : Memory) (n : Nat) : List Byte := (List.range n).map m.get

/-- The listing of the bytes of `d` at offsets from `i` on, over zeros. -/
def cellsOf : Nat → List Byte → List Host.Cell
  | _, [] => []
  | i, v :: rest => if v = 0 then cellsOf (i + 1) rest else (i, v) :: cellsOf (i + 1) rest

/-- A buffer all of whose bytes are 0x00. -/
def Memory.zeros : Memory := ⟨.zero, []⟩

/-- A buffer that holds `d` from offset 0 and 0x00 above it (spec/10_state.md R32). -/
def Memory.ofBytes (d : List Byte) : Memory := ⟨.zero, cellsOf 0 d⟩

/-- The canonical form of a listing: offsets strictly rising from `lo`, below `size`, and no entry that is the value the
unlisted bytes are known to have. -/
def cellsOk (f : Fill) (size : Nat) : Nat → List Host.Cell → Bool
  | _, [] => true
  | lo, (a, v) :: rest => decide (lo ≤ a) && decide (a < size) && decide (f.known ≠ some v) && cellsOk f size (a + 1) rest

/-- The canonical form of a buffer of `size` bytes (log entry 6). -/
def Memory.wf (m : Memory) (size : Nat) : Bool := cellsOk m.fill size 0 m.cells

/-! ### The ends of a command -/

/-- The input of a buffer command, MemRead(INBUF, 0, INLEN) (spec/20_memory.md R80). -/
def State.input (s : State) : List Byte := s.inbuf.read s.inlen.toNat

/-- The result `d` of a buffer command: OUTBUF holds it and is zero above it, OUTLEN is its length, ERR is 0
(spec/10_state.md R27, R32). -/
def State.deliver (s : State) (d : List Byte) : State :=
  { s with outbuf := Memory.ofBytes d, outlen := BitVec.ofNat 32 d.length, err := .ok }

/-- The failure entry `fail ERR_X` (R214): ERR, OUTLEN and all of OUTBUF, and nothing else. -/
def State.fail (s : State) (e : ErrCode) : State :=
  { s with err := e, outlen := 0, outbuf := Memory.zeros }

/-- The illegal command (spec/30_encoding.md R96): ERR <- 6 and nothing else. -/
def State.illegalCommand (s : State) : State := s.setErr .illegal

/-- A buffer command over its input (spec/20_memory.md R80): ERR_LEN first when the input does not fit the buffer (R211),
then the result of `f` delivered or its failure taken. -/
def bufferCommand (s : State) (f : List Byte → Except ErrCode (List Byte)) : State :=
  if s.inlen.toNat > inCap s.params then s.fail .len
  else
    match f s.input with
    | .ok d => s.deliver d
    | .error e => s.fail e

/-- A codec command (spec/43_payload_codec.md R185, R186): ERR_ABSENT, then ERR_KEYLEN, then a buffer command (R213). -/
def codecCommand (nullin : Bool) (s : State) (f : List Byte → Except ErrCode (List Byte)) : State :=
  if nullin then s.fail .absent
  else if s.klen ≠ keyBytes then s.fail .keylen
  else bufferCommand s f

/-! ### Registers -/

/-- (V0, V1) <- b. -/
def State.setBlock (s : State) (b : Word × Word) : State := { s with v0 := b.1, v1 := b.2 }

/-- SBYTE <- b. -/
def State.setByte (s : State) (b : Byte) : State := { s with sbyte := b }

/-- What a host read of a register returns (spec/20_memory.md R68): CMD reads 0, SBYTE and ERR are zero-extended, CAP reads
IN_CAP. No read changes the state. -/
def State.readReg (s : State) : Reg → Word
  | .cmd => 0
  | .status => s.err.statusWord
  | .inlen => s.inlen
  | .outlen => s.outlen
  | .klen => s.klen
  | .idx => s.idx
  | .sbyte => s.sbyte.setWidth 32
  | .cap => BitVec.ofNat 32 (inCap s.params)
  | .v0 => s.v0
  | .v1 => s.v1
  | .k0 => s.key.k0
  | .k1 => s.key.k1
  | .k2 => s.key.k2
  | .k3 => s.key.k3

/-- What a host write stores in a register (spec/20_memory.md R68, R69): SBYTE stores bits [7:0]; STATUS, OUTLEN and CAP
ignore the write; CMD stores nothing (launching its command is the host port's, not this function's). -/
def State.writeReg (s : State) (r : Reg) (v : Word) : State :=
  match r with
  | .cmd | .status | .outlen | .cap => s
  | .inlen => { s with inlen := v }
  | .klen => { s with klen := v }
  | .idx => { s with idx := v }
  | .sbyte => { s with sbyte := v.setWidth 8 }
  | .v0 => { s with v0 := v }
  | .v1 => { s with v1 := v }
  | .k0 => { s with key := { s.key with k0 := v } }
  | .k1 => { s with key := { s.key with k1 := v } }
  | .k2 => { s with key := { s.key with k2 := v } }
  | .k3 => { s with key := { s.key with k3 := v } }

/-- Every register but CAP to 0, every byte of both buffers to 0x00 (spec/44_system.md R201). -/
def State.zeroized (s : State) : State :=
  { s with
    err := .ok, inlen := 0, outlen := 0, klen := 0, idx := 0, sbyte := 0, v0 := 0, v1 := 0, key := ⟨0, 0, 0, 0⟩
    inbuf := Memory.zeros, outbuf := Memory.zeros }

/-- A reset from outside (spec/70_reset_and_hazards.md R240, spec/10_state.md R38): the registers as after reset, the bytes
of both buffers drawn anew (log entries 5 and 8). -/
def State.afterReset (s : State) : State :=
  { s with
    err := .ok, inlen := 0, outlen := 0, klen := 0, idx := 0, sbyte := 0, v0 := 0, v1 := 0, key := ⟨0, 0, 0, 0⟩
    inbuf := ⟨.unspecified s.draws, []⟩, outbuf := ⟨.unspecified (s.draws + 1), []⟩, draws := s.draws + 2 }

end Sys2Proof.Machine
end

