-- ==== Sys2Proof/Machine/Base64.lean ====
section
/-! DEFINITION. The base64 codec and its two commands (spec/42_base64.md). -/

namespace Sys2Proof.Machine

/-- B64CHAR (R150). -/
def b64Char (x : BitVec 6) : Byte :=
  if x.toNat < 26 then 0x41 + x.setWidth 8
  else if x.toNat < 52 then 0x61 + (x.setWidth 8 - 26)
  else if x.toNat < 62 then 0x30 + (x.setWidth 8 - 52)
  else if x.toNat = 62 then 0x2B
  else 0x2F

/-- The pad character `=` (R150). -/
def b64Pad : Byte := 0x3D

/-- B64VAL (R150): none for a byte that is not in the alphabet. -/
def b64Val (c : Byte) : Option (BitVec 6) :=
  if 0x41 ≤ c.toNat ∧ c.toNat ≤ 0x5A then some ((c - 0x41).setWidth 6)
  else if 0x61 ≤ c.toNat ∧ c.toNat ≤ 0x7A then some ((c - 0x61 + 26).setWidth 6)
  else if 0x30 ≤ c.toNat ∧ c.toNat ≤ 0x39 then some ((c - 0x30 + 52).setWidth 6)
  else if c.toNat = 0x2B then some 62
  else if c.toNat = 0x2F then some 63
  else none

/-- B64_ENC (R151): groups of three bytes, the first byte most significant. -/
def b64Enc : List Byte → List Byte
  | d0 :: d1 :: d2 :: rest =>
    let t : BitVec 24 := d0 ++ d1 ++ d2
    b64Char (t.extractLsb' 18 6) :: b64Char (t.extractLsb' 12 6) :: b64Char (t.extractLsb' 6 6)
      :: b64Char (t.extractLsb' 0 6) :: b64Enc rest
  | [d0, d1] =>
    let t : BitVec 18 := d0 ++ d1 ++ (0 : BitVec 2)
    [b64Char (t.extractLsb' 12 6), b64Char (t.extractLsb' 6 6), b64Char (t.extractLsb' 0 6), b64Pad]
  | [d0] =>
    let t : BitVec 12 := d0 ++ (0 : BitVec 4)
    [b64Char (t.extractLsb' 6 6), b64Char (t.extractLsb' 0 6), b64Pad, b64Pad]
  | [] => []

/-- The bytes of one group of four characters (R153), `last` telling whether it is the last group; none is `bad`. -/
def b64Group (last : Bool) (c0 c1 c2 c3 : Byte) : Option (List Byte) :=
  match b64Val c0, b64Val c1, b64Val c2, b64Val c3 with
  | some x0, some x1, some x2, some x3 =>
    let x : BitVec 24 := x0 ++ x1 ++ x2 ++ x3
    some [x.extractLsb' 16 8, x.extractLsb' 8 8, x.extractLsb' 0 8]
  | some x0, some x1, some x2, none =>
    let x : BitVec 18 := x0 ++ x1 ++ x2
    if last ∧ c3 = b64Pad ∧ x.extractLsb' 0 2 = 0 then some [x.extractLsb' 10 8, x.extractLsb' 2 8] else none
  | some x0, some x1, none, none =>
    let x : BitVec 12 := x0 ++ x1
    if last ∧ c2 = b64Pad ∧ c3 = b64Pad ∧ x.extractLsb' 0 4 = 0 then some [x.extractLsb' 4 8] else none
  | _, _, _, _ => none

/-- The groups of a text, in order (R153). -/
def b64Groups : List Byte → Option (List Byte)
  | [] => some []
  | c0 :: c1 :: c2 :: c3 :: rest =>
    match b64Group rest.isEmpty c0 c1 c2 c3, b64Groups rest with
    | some d, some ds => some (d ++ ds)
    | _, _ => none
  | _ => none

/-- B64_DEC (R153): none is `bad`. -/
def b64Dec (t : List Byte) : Option (List Byte) := if t.length % 4 ≠ 0 then none else b64Groups t

/-- The base64 text of the input, which cannot fail (R152). -/
def b64EncStage (d : List Byte) : Except ErrCode (List Byte) := .ok (b64Enc d)

/-- The bytes of the base64 text of the input, or ERR_B64 (R161). -/
def b64DecStage (t : List Byte) : Except ErrCode (List Byte) :=
  match b64Dec t with
  | some d => .ok d
  | none => .error .b64

/-- B64ENC (R160). -/
def execB64enc (s : State) : Host.Outcome State Fault Refusal := .next (bufferCommand s b64EncStage)

/-- B64DEC (R161). -/
def execB64dec (s : State) : Host.Outcome State Fault Refusal := .next (bufferCommand s b64DecStage)

end Sys2Proof.Machine
end

