-- ==== Sys2Proof/Machine/Block.lean ====
section
/-! DEFINITION. The block cipher core and its two commands (spec/40_block_cipher.md). All arithmetic is on words and wraps
(R110). -/

namespace Sys2Proof.Machine

/-- MIX (R111). -/
def mix (v ka kb sum : Word) : Word := ((v <<< 4) + ka) ^^^ (v + sum) ^^^ ((v >>> 5) + kb)

/-- The working values of a block operation (spec/10_state.md R33); they live inside one call only. -/
structure TeaWork where
  sum : Word
  v0 : Word
  v1 : Word
deriving DecidableEq, Repr

/-- One round of TEA_ENC (R112): `v1` is updated with the `v0` just computed, both with the same `sum`. -/
def encRound (k : Key) (t : TeaWork) : TeaWork :=
  let sum := t.sum + delta
  let v0 := t.v0 + mix t.v1 k.k0 k.k1 sum
  let v1 := t.v1 + mix v0 k.k2 k.k3 sum
  ⟨sum, v0, v1⟩

/-- One round of TEA_DEC (R113): `v1` first, then `v0` with the `v1` just computed, then `sum`. -/
def decRound (k : Key) (t : TeaWork) : TeaWork :=
  let v1 := t.v1 - mix t.v0 k.k2 k.k3 t.sum
  let v0 := t.v0 - mix v1 k.k0 k.k1 t.sum
  ⟨t.sum - delta, v0, v1⟩

/-- TEA_ENC (R112). -/
def teaEnc (k : Key) (v : Word × Word) : Word × Word :=
  let t := Nat.iterate (encRound k) rounds ⟨0, v.1, v.2⟩
  (t.v0, t.v1)

/-- TEA_DEC (R113). -/
def teaDec (k : Key) (v : Word × Word) : Word × Word :=
  let t := Nat.iterate (decRound k) rounds ⟨dsum0, v.1, v.2⟩
  (t.v0, t.v1)

/-- The two words of the block [b0..b7] (R117, spec/10_state.md R22). -/
def blockOfBytes (b0 b1 b2 b3 b4 b5 b6 b7 : Byte) : Word × Word := (le32 b0 b1 b2 b3, le32 b4 b5 b6 b7)

/-- The eight bytes of a block (R117). -/
def bytesOfBlock (v : Word × Word) : List Byte := bytes32 v.1 ++ bytes32 v.2

/-- BLK_ENC_BYTES (R117). -/
def blkEncBytes (k : Key) (b0 b1 b2 b3 b4 b5 b6 b7 : Byte) : List Byte :=
  bytesOfBlock (teaEnc k (blockOfBytes b0 b1 b2 b3 b4 b5 b6 b7))

/-- BLK_DEC_BYTES (R117). -/
def blkDecBytes (k : Key) (b0 b1 b2 b3 b4 b5 b6 b7 : Byte) : List Byte :=
  bytesOfBlock (teaDec k (blockOfBytes b0 b1 b2 b3 b4 b5 b6 b7))

/-- BLKENC (R118). -/
def execBlkenc (s : State) : Host.Outcome State Fault Refusal :=
  .next ((s.setBlock (teaEnc s.key (s.v0, s.v1))).setErr .ok)

/-- BLKDEC (R119). -/
def execBlkdec (s : State) : Host.Outcome State Fault Refusal :=
  .next ((s.setBlock (teaDec s.key (s.v0, s.v1))).setErr .ok)

end Sys2Proof.Machine
end

