-- ==== Sys2Proof/Machine/ByteCipher.lean ====
section
/-! DEFINITION. The byte-stream cipher and its two commands (spec/41_byte_cipher.md). -/

namespace Sys2Proof.Machine

/-- QSTEP (R132): a natural number, without wrap. -/
def qstep (m : Byte) (k : Word) : Nat := (4 * m.toNat + k.toNat) ^^^ (m.toNat / 8 + k.toNat)

/-- One iteration of BYTE_ENC (R133): s <- (s + q) mod 256. -/
def byteEncStep (q : Nat) (s : Byte) : Byte := BitVec.ofNat 8 (s.toNat + q)

/-- One iteration of BYTE_DEC (R134): s <- (s - q) mod 256, the representative in 0..255. -/
def byteDecStep (q : Nat) (s : Byte) : Byte := s - BitVec.ofNat 8 q

/-- BYTE_ENC (R133), with `m` and `k` selected by the index (R130). -/
def byteEnc (table : Vector Byte 8) (k : Key) (b : Byte) (i : Nat) : Byte :=
  Nat.iterate (byteEncStep (qstep (tableByte table i) (k.word i))) byteRounds b

/-- BYTE_DEC (R134). -/
def byteDec (table : Vector Byte 8) (k : Key) (c : Byte) (i : Nat) : Byte :=
  Nat.iterate (byteDecStep (qstep (tableByte table i) (k.word i))) byteRounds c

/-- BYTENC (R139). -/
def execBytenc (s : State) : Host.Outcome State Fault Refusal :=
  .next ((s.setByte (byteEnc s.params.table s.key s.sbyte s.idx.toNat)).setErr .ok)

/-- BYTDEC (R140). -/
def execBytdec (s : State) : Host.Outcome State Fault Refusal :=
  .next ((s.setByte (byteDec s.params.table s.key s.sbyte s.idx.toNat)).setErr .ok)

end Sys2Proof.Machine
end

