-- ==== Sys2Proof/Machine/Payload.lean ====
section
/-! DEFINITION. The payload codec and its four commands (spec/43_payload_codec.md). -/

namespace Sys2Proof.Machine

/-- SPLIT (R170): (align, remain). -/
def split (n : Nat) : Nat × Nat := (blockBytes * (n / blockBytes), n % blockBytes)

/-- The chunks of 8 bytes of a list, each put through `f` on its own (R172). -/
def mapChunks (f : Byte → Byte → Byte → Byte → Byte → Byte → Byte → Byte → List Byte) : List Byte → List Byte
  | b0 :: b1 :: b2 :: b3 :: b4 :: b5 :: b6 :: b7 :: rest => f b0 b1 b2 b3 b4 b5 b6 b7 ++ mapChunks f rest
  | _ => []

/-- The bytes of a remainder, each put through `f` with its offset in the payload, from `j` on (R171, R172). -/
def mapRemainder (f : Byte → Nat → Byte) : Nat → List Byte → List Byte
  | _, [] => []
  | j, b :: rest => f b j :: mapRemainder f (j + 1) rest

/-- PLD_ENC (R172). -/
def pldEnc (table : Vector Byte 8) (k : Key) (p : List Byte) : List Byte :=
  let align := (split p.length).1
  mapChunks (blkEncBytes k) (p.take align) ++ mapRemainder (byteEnc table k) align (p.drop align)

/-- PLD_DEC (R173). -/
def pldDec (table : Vector Byte 8) (k : Key) (c : List Byte) : List Byte :=
  let align := (split c.length).1
  mapChunks (blkDecBytes k) (c.take align) ++ mapRemainder (byteDec table k) align (c.drop align)

/-- A row of the table of well-formed UTF-8 sequences: the inclusive range of each byte (R176). -/
abbrev Utf8Row := List (Nat × Nat)

/-- The table of R176. -/
def utf8Table : List Utf8Row :=
  [[(0x00, 0x7F)],
   [(0xC2, 0xDF), (0x80, 0xBF)],
   [(0xE0, 0xE0), (0xA0, 0xBF), (0x80, 0xBF)],
   [(0xE1, 0xEC), (0x80, 0xBF), (0x80, 0xBF)],
   [(0xED, 0xED), (0x80, 0x9F), (0x80, 0xBF)],
   [(0xEE, 0xEF), (0x80, 0xBF), (0x80, 0xBF)],
   [(0xF0, 0xF0), (0x90, 0xBF), (0x80, 0xBF), (0x80, 0xBF)],
   [(0xF1, 0xF3), (0x80, 0xBF), (0x80, 0xBF), (0x80, 0xBF)],
   [(0xF4, 0xF4), (0x80, 0x8F), (0x80, 0xBF), (0x80, 0xBF)]]

/-- What is left of `d` after a sequence that matches the row, if it begins with one. -/
def matchRow : Utf8Row → List Byte → Option (List Byte)
  | [], d => some d
  | (lo, hi) :: row, b :: d => if lo ≤ b.toNat ∧ b.toNat ≤ hi then matchRow row d else none
  | _ :: _, [] => none

/-- Sequences taken off the front, at most `fuel` of them: no two rows of the table share a first byte, so the first row
that matches is the only one. -/
def utf8From : Nat → List Byte → Bool
  | _, [] => true
  | 0, _ :: _ => false
  | fuel + 1, b :: d =>
    match utf8Table.findSome? (matchRow · (b :: d)) with
    | some rest => utf8From fuel rest
    | none => false

/-- UTF8_VALID (R176). A sequence has at least one byte, so the length of `d` is fuel enough. -/
def utf8Valid (d : List Byte) : Bool := utf8From d.length d

/-- PLD_ENC of the input (R183). -/
def pldEncStage (p : Params) (k : Key) (d : List Byte) : Except ErrCode (List Byte) := .ok (pldEnc p.table k d)

/-- PLD_DEC of the input (R184). -/
def pldDecStage (p : Params) (k : Key) (d : List Byte) : Except ErrCode (List Byte) := .ok (pldDec p.table k d)

/-- B64_ENC(PLD_ENC(p, K)), what ENCODE_FN does once its checks are passed (R177). -/
def encodeStage (p : Params) (k : Key) (d : List Byte) : Except ErrCode (List Byte) := .ok (b64Enc (pldEnc p.table k d))

/-- What DECODE_FN does once its checks are passed (R178): base64, decryption, the UTF-8 check. -/
def decodeStage (p : Params) (k : Key) (t : List Byte) : Except ErrCode (List Byte) :=
  match b64Dec t with
  | none => .error .b64
  | some c => if utf8Valid (pldDec p.table k c) then .ok (pldDec p.table k c) else .error .utf8

/-- ENCODE_FN(absent, klen, p, K) (R177), over a payload of any length. -/
def encodeFn (p : Params) (absent : Bool) (klen : Nat) (d : List Byte) (k : Key) : Except ErrCode (List Byte) :=
  if absent then .error .absent else if klen ≠ keyBytes.toNat then .error .keylen else encodeStage p k d

/-- DECODE_FN(absent, klen, t, K) (R178), over a text of any length. -/
def decodeFn (p : Params) (absent : Bool) (klen : Nat) (t : List Byte) (k : Key) : Except ErrCode (List Byte) :=
  if absent then .error .absent else if klen ≠ keyBytes.toNat then .error .keylen else decodeStage p k t

/-- PLDENC (R183). -/
def execPldenc (s : State) : Host.Outcome State Fault Refusal := .next (bufferCommand s (pldEncStage s.params s.key))

/-- PLDDEC (R184). -/
def execPlddec (s : State) : Host.Outcome State Fault Refusal := .next (bufferCommand s (pldDecStage s.params s.key))

/-- ENCODE (R185). -/
def execEncode (nullin : Bool) (s : State) : Host.Outcome State Fault Refusal :=
  .next (codecCommand nullin s (encodeStage s.params s.key))

/-- DECODE (R186). -/
def execDecode (nullin : Bool) (s : State) : Host.Outcome State Fault Refusal :=
  .next (codecCommand nullin s (decodeStage s.params s.key))

end Sys2Proof.Machine
end

