-- ==== Sys2Proof/Machine/System.lean ====
section
/-! DEFINITION. The two system commands (spec/44_system.md). -/

namespace Sys2Proof.Machine

/-- NOP (R200): nothing changes, STATUS.ERR included. -/
def execNop (s : State) : Host.Outcome State Fault Refusal := .next s

/-- ZEROIZE (R201). -/
def execZeroize (s : State) : Host.Outcome State Fault Refusal := .next s.zeroized

end Sys2Proof.Machine
end

