-- ==== Sys2Proof/Machine/Dispatch.lean ====
section
/-! DEFINITION. One arm per command: the meaning of each is the one definition it calls. -/

namespace Sys2Proof.Machine

def exec (i : Instr) (s : State) : Host.Outcome State Fault Refusal :=
  match i with
  | .nop => Sys2Proof.Machine.execNop s
  | .blkenc => Sys2Proof.Machine.execBlkenc s
  | .blkdec => Sys2Proof.Machine.execBlkdec s
  | .bytenc => Sys2Proof.Machine.execBytenc s
  | .bytdec => Sys2Proof.Machine.execBytdec s
  | .pldenc => Sys2Proof.Machine.execPldenc s
  | .plddec => Sys2Proof.Machine.execPlddec s
  | .b64enc => Sys2Proof.Machine.execB64enc s
  | .b64dec => Sys2Proof.Machine.execB64dec s
  | .encode nullin => Sys2Proof.Machine.execEncode nullin s
  | .decode nullin => Sys2Proof.Machine.execDecode nullin s
  | .zeroize => Sys2Proof.Machine.execZeroize s

end Sys2Proof.Machine
end

