-- ==== Sys2Proof/Machine/HostPort.lean ====
section
/-! DEFINITION. The host's side of the unit: the address map, the legal accesses, what a read returns and what a write
stores (spec/20_memory.md R60 to R71). -/

namespace Sys2Proof.Machine

/-- Offsets of INBUF and OUTBUF in the window (R61). -/
def inBase : Nat := 0x100000

/-- The offset of OUTBUF in the window (R61). -/
def outBase : Nat := 0x200000

/-- The offset of a register in REG (spec/10_state.md R20). -/
def regOffset : Reg → Nat
  | .cmd => 0x00
  | .status => 0x04
  | .inlen => 0x08
  | .outlen => 0x0C
  | .klen => 0x10
  | .idx => 0x14
  | .sbyte => 0x18
  | .cap => 0x1C
  | .v0 => 0x20
  | .v1 => 0x24
  | .k0 => 0x30
  | .k1 => 0x34
  | .k2 => 0x38
  | .k3 => 0x3C

/-- The register at an offset of REG; none at a reserved offset (R70). -/
def regAt : Nat → Option Reg
  | 0x00 => some .cmd
  | 0x04 => some .status
  | 0x08 => some .inlen
  | 0x0C => some .outlen
  | 0x10 => some .klen
  | 0x14 => some .idx
  | 0x18 => some .sbyte
  | 0x1C => some .cap
  | 0x20 => some .v0
  | 0x24 => some .v1
  | 0x30 => some .k0
  | 0x34 => some .k1
  | 0x38 => some .k2
  | 0x3C => some .k3
  | _ => none

/-- What a legal access reaches. -/
inductive Place where
  | reg (r : Reg)
  | input (i : Nat)   -- INBUF from offset i
  | output (i : Nat)  -- OUTBUF from offset i
deriving DecidableEq, Repr

/-- Where the access of `n` bytes at `a` goes; none is buserr (R67): an unmapped byte (R61, R70), a width its space does not
have (R66), or a misaligned word (R65). -/
def resolve (p : Params) (a : Offset) (n : Nat) : Option Place :=
  let o := a.toNat
  if o < 0x100 then
    if n = 4 ∧ o % 4 = 0 then (regAt o).map .reg else none
  else if n = 1 ∨ (n = 4 ∧ o % 4 = 0) then
    if inBase ≤ o ∧ o + n ≤ inBase + inCap p then some (.input (o - inBase))
    else if outBase ≤ o ∧ o + n ≤ outBase + outCap p then some (.output (o - outBase))
    else none
  else none

/-- The `n` bytes of a buffer at offset `i`, as a reply (R68). -/
def Memory.reply (m : Memory) (i n : Nat) : Reply := if n = 1 then .byte (m.get i) else .word (m.getWord i)

/-- The low 8n bits of `v` written to a buffer at offset `i` (R68; log entry 11). -/
def Memory.store (m : Memory) (i n v : Nat) : Memory :=
  if n = 1 then m.set i (BitVec.ofNat 8 v) else m.setWord i (BitVec.ofNat 32 v)

/-- HostRead(a, n) (R68); none is buserr. It has no side effect. -/
def hostRead (s : State) (a : Offset) (n : Nat) : Option Reply :=
  match resolve s.params a n with
  | some (.reg r) => some (.word (s.readReg r))
  | some (.input i) => some (s.inbuf.reply i n)
  | some (.output i) => some (s.outbuf.reply i n)
  | none => none

/-- What HostWrite(a, n, v) stores at a place (R68, R69): OUTBUF ignores it. -/
def State.hostStore (s : State) (p : Place) (n v : Nat) : State :=
  match p with
  | .reg r => s.writeReg r (BitVec.ofNat 32 v)
  | .input i => { s with inbuf := s.inbuf.store i n v }
  | .output _ => s

/-- The unit answers an access (R62; log entry 3). -/
def State.answer (s : State) (r : Reply) : State := { s with replies := r :: s.replies }

end Sys2Proof.Machine
end

