-- ==== Sys2Proof/Machine/Serve.lean ====
section
/-! DEFINITION. One host event from beginning to end: a write to CMD contains the whole of its command (spec/00_scope.md R13,
spec/20_memory.md R68, R74). -/

namespace Sys2Proof.Machine

/-- Execute the command that `w` encodes (spec/10_state.md R29): a legal word by its meaning, any other as the illegal command
(spec/30_encoding.md R94, R96). -/
def launch (w : Word) (s : State) : Host.Outcome State Fault Refusal :=
  match decode w with
  | .command i => exec i s
  | .illegal _ => .next s.illegalCommand

/-- One event served. A CMD write answers ok whether its command succeeds or fails (spec/60_exceptions.md R216); buserr is a
refusal (spec/20_memory.md R67; log entry 4). -/
def serve (e : HostEvent) (s : State) : Host.Outcome State Fault Refusal :=
  match e with
  | .reset => .next s.afterReset
  | .read a n =>
    match hostRead s a n with
    | some r => .next (s.answer r)
    | none => .refused .buserr
  | .write a n v =>
    match resolve s.params a n with
    | none => .refused .buserr
    | some (.reg .cmd) => launch (BitVec.ofNat 32 v) (s.answer .done)
    | some p => .next ((s.hostStore p n v).answer .done)

/-- The event at the head of the host's list taken off it. -/
def State.pending (s : State) (rest : List HostEvent) : State := { s with script := rest }

/-- One step: the next event of the host served. With none pending the unit is idle and keeps all its state
(spec/60_exceptions.md R225; log entry 2). -/
def serveNext (s : State) : Host.Outcome State Fault Refusal :=
  match s.script with
  | [] => .next s
  | e :: rest => serve e (s.pending rest)

/-- A CMD write of `w` put before what the host has pending. -/
def State.launchNext (s : State) (w : Word) : State :=
  { s with script := .write (BitVec.ofNat 22 (regOffset .cmd)) 4 w.toNat :: s.script }

end Sys2Proof.Machine
end

