-- ==== Sys2Proof/Machine/Step.lean ====
section
/-! DEFINITION. One step of the unit: one host event (spec/00_scope.md R13). -/

namespace Sys2Proof.Machine

/-- One step. -/
def step (s : State) : Host.Outcome State Fault Refusal := serveNext s

/-- `s` with a CMD write of the table word `w` as the next host event, before any other pending (log entry 13). -/
def State.withFetchWord (s : State) (nbits w : Nat) : State := s.launchNext (tableWord nbits w)

end Sys2Proof.Machine
end

