-- ==== Sys2Proof/Machine/Relation.lean ====
section
/-! DEFINITION. The step relation in the form of spec/10_state.md R39: TABLE and IN_CAP are its argument, and the state it steps
does not hold them. -/

namespace Sys2Proof.Machine

/-- An outcome with its next state, if it has one, put through `f`. -/
def mapNext {α β : Type} (f : α → β) : Host.Outcome α Fault Refusal → Host.Outcome β Fault Refusal
  | .next a => .next (f a)
  | .fault r => .fault r
  | .refused r => .refused r

/-- One step of the unit whose parameters are `p` (R39). -/
def stepUnder (p : Params) (u : UnitState) : Host.Outcome UnitState Fault Refusal :=
  mapNext State.toUnitState (step { toUnitState := u, params := p })

end Sys2Proof.Machine
end

