-- ==== Sys2Proof/Machine/Script.lean ====
section
/-! DEFINITION. The host script: what access each line is, and the pseudo-operations (spec/30_encoding.md R98, R99). -/

namespace Sys2Proof.Machine

/-- The access of a script line (R98). Its offset is right for the well-formed lines (log entry 15). -/
def lineAccess : ScriptLine → HostEvent
  | .wr r v => .write (BitVec.ofNat 22 (regOffset r)) 4 v.toNat
  | .rd r => .read (BitVec.ofNat 22 (regOffset r)) 4
  | .wrb i v => .write (BitVec.ofNat 22 (inBase + i)) 1 v.toNat
  | .wrw i v => .write (BitVec.ofNat 22 (inBase + i)) 4 v.toNat
  | .rdb i => .read (BitVec.ofNat 22 (outBase + i)) 1
  | .rdw i => .read (BitVec.ofNat 22 (outBase + i)) 4
  | .command i => .write (BitVec.ofNat 22 (regOffset .cmd)) 4 (encode i).toNat

/-- LDKEY (R99): the sixteen key bytes as four words, and KLEN. -/
def ldkey (b : Vector Byte 16) : List ScriptLine :=
  [.wr .k0 (le32 b[0] b[1] b[2] b[3]), .wr .k1 (le32 b[4] b[5] b[6] b[7]), .wr .k2 (le32 b[8] b[9] b[10] b[11]),
   .wr .k3 (le32 b[12] b[13] b[14] b[15]), .wr .klen 16]

/-- The byte writes of LDIN, from offset `i` on. -/
def ldinBytes : Nat → List Byte → List ScriptLine
  | _, [] => []
  | i, b :: rest => .wrb i b :: ldinBytes (i + 1) rest

/-- LDIN (R99). -/
def ldin (b : List Byte) : List ScriptLine := ldinBytes 0 b ++ [.wr .inlen (BitVec.ofNat 32 b.length)]

/-- LDBLK (R99). -/
def ldblk (b : Vector Byte 8) : List ScriptLine :=
  [.wr .v0 (le32 b[0] b[1] b[2] b[3]), .wr .v1 (le32 b[4] b[5] b[6] b[7])]

/-- The accesses of a script, given to a unit as what its host has pending (spec/70_reset_and_hazards.md R255). -/
def State.withScript (s : State) (lines : List ScriptLine) : State := { s with script := lines.map lineAccess }

end Sys2Proof.Machine
end

