-- ==== Sys2Proof/Safety.lean ====
section
/-! DEFINITION. What a safe run is, and the invariant of the state, in the terms the statements use. -/

namespace Sys2Proof.Safety

open Sys2Proof.Machine

/-- The event does not answer buserr (spec/20_memory.md R67). -/
def eventOk (p : Params) : HostEvent → Bool
  | .read a n | .write a n _ => (resolve p a n).isSome
  | .reset => true

/-- The event does not launch an illegal word. A run that does "has met a fault" (spec/93_implementation_defined.md U4),
though the unit goes on (log entry 7). -/
def eventLegal (p : Params) : HostEvent → Bool
  | .write a n v =>
    match resolve p a n, decode (BitVec.ofNat 32 v) with
    | some (.reg .cmd), .illegal _ => false
    | _, _ => true
  | .read _ _ | .reset => true

/-- A host script none of whose accesses goes wrong. -/
def scriptOk (s : State) : Bool := s.script.all (eventOk s.params)

/-- A host script that moreover launches no illegal word and writes no value wider than its access. -/
def scriptLegal (s : State) : Bool :=
  s.script.all fun e => eventOk s.params e && eventLegal s.params e && e.wellFormed

/-- The run is over (spec/70_reset_and_hazards.md R255). -/
def runOver (s : State) : Bool := s.script.isEmpty

/-- What every step keeps. Nothing is said of the registers that may hold any word. -/
structure Inv (s : State) : Prop where
  /-- INBUF is in canonical form, within its IN_CAP bytes (spec/10_state.md R31). -/
  inbufWf : s.inbuf.wf (inCap s.params) = true
  /-- OUTBUF is in canonical form, within its OUT_CAP bytes (spec/10_state.md R32). -/
  outbufWf : s.outbuf.wf (outCap s.params) = true
  /-- "Always `OUTLEN <= OUT_CAP`" (spec/10_state.md R27). -/
  outlenLe : s.outlen.toNat ≤ outCap s.params
  /-- Once a command has written OUTBUF, every byte from OUTLEN on is 0x00 (spec/10_state.md R32). -/
  zeroAbove : s.outbuf.fill = .zero → ∀ i, s.outlen.toNat ≤ i → s.outbuf.get i = 0
  /-- Until then no byte of OUTBUF is a valid result (spec/10_state.md R38). -/
  noResult : s.outbuf.fill ≠ .zero → s.outlen = 0 ∧ s.outbuf.cells = []
  /-- A failure leaves no output (spec/60_exceptions.md R214), so a code 1 to 5 comes with OUTLEN = 0. -/
  failedEmpty : s.err ∉ [.ok, .illegal] → s.outlen = 0
  /-- The draws that the buffers name have been made (log entry 5). -/
  drawsMade : ∀ d, (s.inbuf.fill = .unspecified d ∨ s.outbuf.fill = .unspecified d) → d < s.draws

end Sys2Proof.Safety
end

