-- ==== Sys2Proof/Certificates/Slice0/Obligations.lean ====
section
/-! DEFINITION. The statements about the unit. Each says which sentence of spec/ it formalises; OBLIGATIONS.json lists them.
Nothing here rests on the value of a free value: TABLE, IN_CAP and the unspecified buffer bytes are whatever the state holds. -/

namespace Sys2Proof.Claims

open Sys2Proof.Machine

/-- The registers a buffer command leaves alone, and every byte of INBUF, and what is not the unit's. -/
def SameOperands (s t : State) : Prop :=
  t.inlen = s.inlen ∧ t.klen = s.klen ∧ t.idx = s.idx ∧ t.sbyte = s.sbyte ∧ t.v0 = s.v0 ∧ t.v1 = s.v1 ∧ t.key = s.key ∧
  (∀ j, t.inbuf.get j = s.inbuf.get j) ∧ t.params = s.params ∧ t.draws = s.draws ∧ t.script = s.script ∧ t.replies = s.replies

/-- A buffer command succeeded with the result `d`: ERR = 0, OUTLEN its length, OUTBUF holding it and 0x00 above it. -/
def Delivers (s t : State) (d : List Byte) : Prop :=
  t.err = .ok ∧ t.outlen.toNat = d.length ∧ (∀ j, t.outbuf.get j = d.getD j 0) ∧ SameOperands s t

/-- A command failed with `e`: the three writes of R214 and no other. -/
def FailsWith (s t : State) (e : ErrCode) : Prop :=
  t.err = e ∧ t.outlen = 0 ∧ (∀ j, t.outbuf.get j = 0) ∧ SameOperands s t

/-- `s` after the access at the head of the host's list has been answered with `r`. -/
def answered (s : State) (rest : List HostEvent) (r : Reply) : State := { s with script := rest, replies := r :: s.replies }

/-- The accesses that do not answer buserr, written out from R61, R65, R66 and R70. -/
def LegalAccess (p : Params) (a : Offset) (n : Nat) : Prop :=
  (n = 4 ∧ a.toNat ∈ [0x00, 0x04, 0x08, 0x0C, 0x10, 0x14, 0x18, 0x1C, 0x20, 0x24, 0x30, 0x34, 0x38, 0x3C]) ∨
  ((n = 1 ∨ (n = 4 ∧ a.toNat % 4 = 0)) ∧
    ((0x100000 ≤ a.toNat ∧ a.toNat + n ≤ 0x100000 + inCap p) ∨ (0x200000 ≤ a.toNat ∧ a.toNat + n ≤ 0x200000 + outCap p)))

/-- The number STATUS reads for each code (R210). -/
def codeNumber : ErrCode → Nat
  | .ok => 0
  | .absent => 1
  | .keylen => 2
  | .len => 3
  | .b64 => 4
  | .utf8 => 5
  | .illegal => 6

/-- (r * DELTA) mod 2^32 (R114). -/
def roundSum (r : Nat) : Word := BitVec.ofNat 32 (r * 0x9E3779B9)

/-- The expression that R112 and R113 add and subtract, written out. -/
def roundTerm (v ka kb sum : Word) : Word := ((v <<< 4) + ka) ^^^ (v + sum) ^^^ ((v >>> 5) + kb)

/-- `q3` of R136, from bits 0, 3, 4, 5 of `m` and the low three bits of `k`. -/
def q3 (m k : Nat) : Nat := ((4 * (m % 2) + k % 8) % 8) ^^^ ((m / 8 % 8 + k % 8) % 8)

/-- The block at offset `o` of a byte list, as two little-endian words (R22, R63 point 2, R117). -/
def blockAt (p : List Byte) (o : Nat) : Word × Word :=
  (le32 (p.getD o 0) (p.getD (o + 1) 0) (p.getD (o + 2) 0) (p.getD (o + 3) 0),
   le32 (p.getD (o + 4) 0) (p.getD (o + 5) 0) (p.getD (o + 6) 0) (p.getD (o + 7) 0))

/-- The bytes of `q` lie in the ranges of the row, one in each. -/
def InRow (row : List (Nat × Nat)) (q : List Byte) : Prop :=
  List.Forall₂ (fun (r : Nat × Nat) (b : Byte) => r.1 ≤ b.toNat ∧ b.toNat ≤ r.2) row q

/-- The nine rows of R176. -/
def utf8Rows : List (List (Nat × Nat)) :=
  [[(0x00, 0x7F)], [(0xC2, 0xDF), (0x80, 0xBF)], [(0xE0, 0xE0), (0xA0, 0xBF), (0x80, 0xBF)],
   [(0xE1, 0xEC), (0x80, 0xBF), (0x80, 0xBF)], [(0xED, 0xED), (0x80, 0x9F), (0x80, 0xBF)],
   [(0xEE, 0xEF), (0x80, 0xBF), (0x80, 0xBF)], [(0xF0, 0xF0), (0x90, 0xBF), (0x80, 0xBF), (0x80, 0xBF)],
   [(0xF1, 0xF3), (0x80, 0xBF), (0x80, 0xBF), (0x80, 0xBF)], [(0xF4, 0xF4), (0x80, 0x8F), (0x80, 0xBF), (0x80, 0xBF)]]

/-- The commands that read INBUF and write OUTBUF. -/
def isBufferCommand : Instr → Bool
  | .pldenc | .plddec | .b64enc | .b64dec | .encode _ | .decode _ => true
  | .nop | .blkenc | .blkdec | .bytenc | .bytdec | .zeroize => false

/-- The codes a command can report (R212). NOP, which writes none, has no row. -/
def codesOf : Instr → List ErrCode
  | .nop => []
  | .blkenc | .blkdec | .bytenc | .bytdec | .zeroize => [.ok]
  | .pldenc | .plddec | .b64enc => [.ok, .len]
  | .b64dec => [.ok, .len, .b64]
  | .encode false => [.ok, .keylen, .len]
  | .decode false => [.ok, .keylen, .len, .b64, .utf8]
  | .encode true | .decode true => [.absent]

end Sys2Proof.Claims

open Sys2Proof Sys2Proof.Machine Sys2Proof.Claims Sys2Proof.Safety

/-! ### Encoding -/

/-- Each legal word has one meaning and each command one word (spec/30_encoding.md R90, R92, R94). -/
def Obligations.WordsAndCommandsCorrespond : Prop :=
  ∀ (w : Word) (i : Instr), decode w = .command i ↔ w = encode i

/-- R94, whole: the order of the tests, the row the rest decodes to, and "Exactly 14 of the 2^32 words are legal". -/
def Obligations.ExactlyFourteenWordsAreLegal : Prop :=
  ∀ w : Word,
    (w.extractLsb' 9 23 ≠ 0 → ∃ why, decode w = .illegal why) ∧
    (w.extractLsb' 9 23 = 0 → 0x0B < (w.extractLsb' 0 8).toNat → ∃ why, decode w = .illegal why) ∧
    (w.extractLsb' 9 23 = 0 → w.getLsbD 8 = true → (w.extractLsb' 0 8).toNat ∉ [0x09, 0x0A] → ∃ why, decode w = .illegal why) ∧
    (w.extractLsb' 9 23 = 0 → (w.extractLsb' 0 8).toNat ≤ 0x0B →
      (w.getLsbD 8 = true → (w.extractLsb' 0 8).toNat ∈ [0x09, 0x0A]) →
      ∃ i, decode w = .command i ∧
        i = ([.nop, .blkenc, .blkdec, .bytenc, .bytdec, .pldenc, .plddec, .b64enc, .b64dec,
          .encode (w.getLsbD 8), .decode (w.getLsbD 8), .zeroize] : List Instr).getD (w.extractLsb' 0 8).toNat .nop) ∧
    ((∃ i, decode w = .command i) ↔
      w ∈ ([0x00, 0x01, 0x02, 0x03, 0x04, 0x05, 0x06, 0x07, 0x08, 0x09, 0x0A, 0x0B, 0x109, 0x10A] : List Word))

/-- The match and mask columns of R92: a word selects a row exactly when it decodes to that row's command. -/
def Obligations.TableRowsSelectWhatDecodes : Prop :=
  ∀ r ∈ opcodeTable, ∀ w : Word, r.selects w = true ↔ ∃ i, decode w = .command i ∧ i.mnemonic = r.mnemonic

/-- Words written out from R92, and the illegal words of spec/95 "Command decoding". -/
def Obligations.WordsOfTheTableDecode : Prop :=
  decode 0x00000000 = .command .nop ∧ decode 0x00000001 = .command .blkenc ∧ decode 0x00000004 = .command .bytdec ∧
  decode 0x00000007 = .command .b64enc ∧ decode 0x00000009 = .command (.encode false) ∧
  decode 0x0000010A = .command (.decode true) ∧ decode 0x0000000B = .command .zeroize ∧
  decode 0x00000209 = .illegal .reservedBits ∧ decode 0x0000000C = .illegal .unknownOpcode ∧
  decode 0x0000010B = .illegal .nullinNotTaken

/-! ### A step -/

/-- A write to CMD is one step that contains the whole command of the word written (spec/00_scope.md R13,
spec/10_state.md R29). -/
def Obligations.CmdWriteRunsTheDecodedCommand : Prop :=
  ∀ (s : State) (rest : List HostEvent) (v : Nat) (i : Instr),
    s.script = .write 0 4 v :: rest → decode (BitVec.ofNat 32 v) = .command i →
    step s = exec i (answered s rest .done)

/-- The same through the model's placing of a table word before all that is pending (log entry 13). -/
def Obligations.PlacedWordRunsNext : Prop :=
  ∀ (s : State) (w : Nat) (i : Instr), decodeTableWord 32 w = some i →
    step (s.withFetchWord 32 w) = exec i (answered s s.script .done)

/-- R96: every word that R94 calls illegal writes STATUS.ERR <- 6 and nothing else. -/
def Obligations.IllegalWordWritesErrSixOnly : Prop :=
  ∀ (s : State) (rest : List HostEvent) (v : Nat) (why : IllegalWord),
    s.script = .write 0 4 v :: rest → decode (BitVec.ofNat 32 v) = .illegal why →
    step s = .next { answered s rest .done with err := .illegal } ∧
    ({ answered s rest .done with err := .illegal } : State).readReg .status = 6

/-- "The unit ... does nothing otherwise" (spec/00_scope.md R12); that a step with nothing pending is this idling is the
model's choice (log entry 2). -/
def Obligations.IdleUnitKeepsItsState : Prop :=
  ∀ s : State, s.script = [] → step s = .next s

/-- "Every command is defined in every state" (spec/70 R242), and no command touches what is not the unit's to write: the
parameters, the draws, the host's list and the answers given. -/
def Obligations.EveryCommandCompletesInEveryState : Prop :=
  ∀ (i : Instr) (s : State), ∃ t, exec i s = .next t ∧
    t.params = s.params ∧ t.draws = s.draws ∧ t.script = s.script ∧ t.replies = s.replies

/-! ### Block cipher -/

/-- R118 (with R112, R114): the word of BLKENC, and in every state: 32 rounds, round r with sum = (r * DELTA) mod 2^32, V1 with
the V0 just computed. They are TEA_ENC, which the payload's chunks go through too. BLKENC writes V0, V1 and ERR, and nothing else
of the state. -/
def Obligations.BlkencRunsTheRounds : Prop :=
  decode 0x00000001 = .command .blkenc ∧
  ∀ s : State, ∃ a b : Nat → Word, a 0 = s.v0 ∧ b 0 = s.v1 ∧
    (∀ r, r < 32 →
      a (r + 1) = a r + roundTerm (b r) s.key.k0 s.key.k1 (roundSum (r + 1)) ∧
      b (r + 1) = b r + roundTerm (a (r + 1)) s.key.k2 s.key.k3 (roundSum (r + 1))) ∧
    teaEnc s.key (s.v0, s.v1) = (a 32, b 32) ∧ exec .blkenc s = .next { s with v0 := a 32, v1 := b 32, err := .ok }

/-- R119 (with R113, R114): the word of BLKDEC, and in every state: 32 rounds, round r = 1..32 with
sum = ((33 - r) * DELTA) mod 2^32, V1 before V0. They are TEA_DEC. BLKDEC writes V0, V1 and ERR, and nothing else of the state. -/
def Obligations.BlkdecRunsTheRounds : Prop :=
  decode 0x00000002 = .command .blkdec ∧
  ∀ s : State, ∃ a b : Nat → Word, a 0 = s.v0 ∧ b 0 = s.v1 ∧
    (∀ r, r < 32 →
      b (r + 1) = b r - roundTerm (a r) s.key.k2 s.key.k3 (roundSum (32 - r)) ∧
      a (r + 1) = a r - roundTerm (b (r + 1)) s.key.k0 s.key.k1 (roundSum (32 - r))) ∧
    teaDec s.key (s.v0, s.v1) = (a 32, b 32) ∧ exec .blkdec s = .next { s with v0 := a 32, v1 := b 32, err := .ok }

/-- R115: inverse bijections for every key, and not involutions. -/
def Obligations.BlockCipherHalvesAreInverse : Prop :=
  (∀ (k : Key) (v : Word × Word), teaDec k (teaEnc k v) = v ∧ teaEnc k (teaDec k v) = v) ∧
  (∃ (k : Key) (v : Word × Word), teaEnc k (teaEnc k v) ≠ v) ∧ (∃ (k : Key) (v : Word × Word), teaDec k (teaDec k v) ≠ v)

/-- The corner case of R119: "`BLKENC` then `BLKDEC` (or the reverse) with `K` unchanged in between restores `V0`, `V1`". -/
def Obligations.BlkdecUndoesBlkenc : Prop :=
  ∀ s : State,
    (∃ t, exec .blkenc s = .next t ∧ exec .blkdec t = .next { s with err := .ok }) ∧
    (∃ t, exec .blkdec s = .next t ∧ exec .blkenc t = .next { s with err := .ok })

/-- R116: masking once at the end of an update of unbounded integers gives the words of the model, on both paths. -/
def Obligations.MaskingOnceGivesTheSameWords : Prop :=
  ∀ (a v ka kb : Word) (sum : Nat),
    BitVec.ofNat 32 (a.toNat + ((v.toNat * 2 ^ 4 + ka.toNat) ^^^ (v.toNat + sum) ^^^ (v.toNat / 2 ^ 5 + kb.toNat))) =
      a + mix v ka kb (BitVec.ofNat 32 sum) ∧
    BitVec.ofInt 32
        (a.toNat - ((v.toNat * 2 ^ 4 + ka.toNat) ^^^ (v.toNat + sum) ^^^ (v.toNat / 2 ^ 5 + kb.toNat) : Nat)) =
      a - mix v ka kb (BitVec.ofNat 32 sum)

/-! ### Byte cipher -/

/-- R136, R139, R140: BYTE_ENC and BYTE_DEC, and so the commands, add and subtract 32 * q3; the commands write SBYTE and ERR and
nothing else (IDX is not advanced). -/
def Obligations.ByteCommandsAddAndSubtractThirtyTwoTimesQ3 : Prop :=
  decode 0x00000003 = .command .bytenc ∧ decode 0x00000004 = .command .bytdec ∧
  ∀ s : State,
    let q := q3 (s.params.table.toList.getD (s.idx.toNat % 8) 0).toNat
      (([s.key.k0, s.key.k1, s.key.k2, s.key.k3].getD (s.idx.toNat % 4) 0).toNat)
    byteEnc s.params.table s.key s.sbyte s.idx.toNat = BitVec.ofNat 8 (s.sbyte.toNat + 32 * q) ∧
    byteDec s.params.table s.key s.sbyte s.idx.toNat = BitVec.ofNat 8 (s.sbyte.toNat + (256 - 32 * q)) ∧
    exec .bytenc s = .next { s with sbyte := BitVec.ofNat 8 (s.sbyte.toNat + 32 * q), err := .ok } ∧
    exec .bytdec s = .next { s with sbyte := BitVec.ofNat 8 (s.sbyte.toNat + (256 - 32 * q)), err := .ok }

/-- R135: inverses for matching index and key, and not in general for others. -/
def Obligations.ByteCipherHalvesAreInverse : Prop :=
  (∀ (table : Vector Byte 8) (k : Key) (b : Byte) (i : Nat),
    byteDec table k (byteEnc table k b i) i = b ∧ byteEnc table k (byteDec table k b i) i = b) ∧
  (∃ (table : Vector Byte 8) (k : Key) (b : Byte) (i j : Nat), byteDec table k (byteEnc table k b i) j ≠ b) ∧
  (∃ (table : Vector Byte 8) (k k' : Key) (b : Byte) (i : Nat), byteDec table k' (byteEnc table k b i) i ≠ b)

/-- The corner case of R140: "`BYTENC` then `BYTDEC` with `K` and `IDX` unchanged restores `SBYTE`", and the reverse. -/
def Obligations.BytdecUndoesBytenc : Prop :=
  ∀ s : State,
    (∃ t, exec .bytenc s = .next t ∧ exec .bytdec t = .next { s with err := .ok }) ∧
    (∃ t, exec .bytdec s = .next t ∧ exec .bytenc t = .next { s with err := .ok })

/-- R131: two indices that agree modulo 8 give the same results, and i mod 8 and i mod 4 are i[2:0] and i[1:0]. -/
def Obligations.OnlyThreeIndexBitsMatter : Prop :=
  (∀ (table : Vector Byte 8) (k : Key) (b : Byte) (i j : Nat), i % 8 = j % 8 →
    tableByte table i = tableByte table j ∧ k.word i = k.word j ∧
    byteEnc table k b i = byteEnc table k b j ∧ byteDec table k b i = byteDec table k b j) ∧
  (∀ i : Word, i.toNat % 8 = (i.extractLsb' 0 3).toNat ∧ i.toNat % 4 = (i.extractLsb' 0 2).toNat)

/-! ### Packing -/

/-- R17: LE32 and BYTES32, and that each undoes the other. -/
def Obligations.PackingIsLittleEndian : Prop :=
  (∀ b0 b1 b2 b3 : Byte,
    (le32 b0 b1 b2 b3).toNat = b0.toNat + 2 ^ 8 * b1.toNat + 2 ^ 16 * b2.toNat + 2 ^ 24 * b3.toNat ∧
    bytes32 (le32 b0 b1 b2 b3) = [b0, b1, b2, b3]) ∧
  (∀ w : Word, ∃ b0 b1 b2 b3 : Byte, bytes32 w = [b0, b1, b2, b3] ∧ le32 b0 b1 b2 b3 = w ∧
    b0 = w.extractLsb' 0 8 ∧ b1 = w.extractLsb' 8 8 ∧ b2 = w.extractLsb' 16 8 ∧ b3 = w.extractLsb' 24 8)

/-- The byte view of the key (R21): K[i] is LE32 of its four key bytes. -/
def Obligations.KeyWordsAreFourKeyBytes : Prop :=
  ∀ (k : Key) (i : Nat), i < 4 →
    k.word i = le32 (k.byte (4 * i)) (k.byte (4 * i + 1)) (k.byte (4 * i + 2)) (k.byte (4 * i + 3))

/-! ### Base64 -/

/-- R150: the alphabet, and that B64VAL is its inverse and undefined elsewhere. -/
def Obligations.Base64AlphabetAndItsInverse : Prop :=
  (∀ x : BitVec 6,
    (x.toNat ≤ 25 → (b64Char x).toNat = 0x41 + x.toNat) ∧
    (26 ≤ x.toNat → x.toNat ≤ 51 → (b64Char x).toNat = 0x61 + (x.toNat - 26)) ∧
    (52 ≤ x.toNat → x.toNat ≤ 61 → (b64Char x).toNat = 0x30 + (x.toNat - 52)) ∧
    (x.toNat = 62 → b64Char x = 0x2B) ∧ (x.toNat = 63 → b64Char x = 0x2F)) ∧
  (∀ (c : Byte) (x : BitVec 6), b64Val c = some x ↔ b64Char x = c) ∧
  (∀ c ∈ ([0x3D, 0x20, 0x0D, 0x0A, 0x2D, 0x5F] : List Byte), b64Val c = none)

/-- R151, bit by bit: bit 7-i of data byte j is bit 8j+i of the text's 6-bit digits, the first bit most significant; the bits
after the data are zero, and the last one or two characters are `=` when the length is 2 or 1 modulo 3. -/
def Obligations.Base64TextCarriesTheBitsInOrder : Prop :=
  ∀ d : List Byte,
    (∀ j b, d[j]? = some b → ∀ i, i < 8 → ∃ x : BitVec 6,
      (b64Enc d)[(8 * j + i) / 6]? = some (b64Char x) ∧ x.getLsbD (5 - (8 * j + i) % 6) = b.getLsbD (7 - i)) ∧
    (∀ i, i < 6 → ∀ x : BitVec 6, (b64Enc d)[8 * d.length / 6]? = some (b64Char x) → 8 * d.length % 6 ≤ i →
      8 * d.length % 6 ≠ 0 → x.getLsbD (5 - i) = false) ∧
    (∀ j, (8 * d.length + 5) / 6 ≤ j → j < (b64Enc d).length → (b64Enc d)[j]? = some 0x3D)

/-- R152: the length of the text. -/
def Obligations.Base64TextLength : Prop :=
  (∀ d : List Byte, (b64Enc d).length = 4 * ((d.length + 2) / 3) ∧ (b64Enc d).length % 4 = 0) ∧ b64Enc [] = []

/-- R155: exact partial inverses; the encoder is injective and the decoder succeeds on exactly its image. -/
def Obligations.Base64HalvesAreExactPartialInverses : Prop :=
  (∀ d : List Byte, b64Dec (b64Enc d) = some d) ∧
  (∀ t d : List Byte, b64Dec t = some d → b64Enc d = t) ∧
  (∀ d d' : List Byte, b64Enc d = b64Enc d' → d = d') ∧
  (∀ t : List Byte, (∃ d, b64Dec t = some d) ↔ ∃ d, b64Enc d = t)

/-- R154: the texts that do not decode (a length that is not a multiple of 4; a byte that is neither of the alphabet nor `=`; an
`=` before the last two characters; an `=` last but one that is not followed by `=`; unused bits that are not zero before one
`=`, or before two), and the length of what any other gives. -/
def Obligations.Base64DecodingFailsExactlyOnBadTexts : Prop :=
  (∀ t : List Byte, b64Dec t = none ↔
    t.length % 4 ≠ 0 ∨ (∃ c ∈ t, b64Val c = none ∧ c ≠ 0x3D) ∨
    (∃ j, t[j]? = some 0x3D ∧ j + 2 < t.length) ∨
    (t[t.length - 2]? = some 0x3D ∧ t[t.length - 1]? ≠ some 0x3D) ∨
    (∃ x : BitVec 6, t[t.length - 2]? = some (b64Char x) ∧ t[t.length - 1]? = some 0x3D ∧ x.extractLsb' 0 2 ≠ 0) ∨
    (∃ x : BitVec 6, t[t.length - 3]? = some (b64Char x) ∧ t[t.length - 2]? = some 0x3D ∧ x.extractLsb' 0 4 ≠ 0)) ∧
  (∀ t d : List Byte, b64Dec t = some d → d.length = 3 * t.length / 4 - t.count 0x3D ∧ t.count 0x3D ≤ 2) ∧
  b64Dec [] = some []

/-- R160: B64ENC in every state. -/
def Obligations.B64encResult : Prop :=
  decode 0x00000007 = .command .b64enc ∧
  ∀ s : State, ∃ t, exec .b64enc s = .next t ∧
    (inCap s.params < s.inlen.toNat → FailsWith s t .len) ∧
    (s.inlen.toNat ≤ inCap s.params → Delivers s t (b64Enc s.input) ∧ t.outlen.toNat = 4 * ((s.inlen.toNat + 2) / 3))

/-- R161: B64DEC in every state. -/
def Obligations.B64decResult : Prop :=
  decode 0x00000008 = .command .b64dec ∧
  ∀ s : State, ∃ t, exec .b64dec s = .next t ∧
    (inCap s.params < s.inlen.toNat → FailsWith s t .len) ∧
    (s.inlen.toNat ≤ inCap s.params →
      (b64Dec s.input = none → FailsWith s t .b64) ∧ (∀ d, b64Dec s.input = some d → Delivers s t d) ∧
      (s.inlen.toNat % 4 ≠ 0 → FailsWith s t .b64))

/-! ### Payload transform -/

/-- R172 to R174, with R117: the length is kept, each aligned chunk of eight bytes is read as two little-endian words, goes
through the block cipher on its own and is packed the same way, and each remainder byte goes through the byte cipher under its
offset. -/
def Obligations.PayloadIsChunksThenRemainder : Prop :=
  ∀ (table : Vector Byte 8) (k : Key) (p : List Byte),
    (pldEnc table k p).length = p.length ∧ (pldDec table k p).length = p.length ∧
    (∀ c, c < p.length / 8 →
      ((pldEnc table k p).drop (8 * c)).take 8 =
        bytes32 (teaEnc k (blockAt p (8 * c))).1 ++ bytes32 (teaEnc k (blockAt p (8 * c))).2 ∧
      ((pldDec table k p).drop (8 * c)).take 8 =
        bytes32 (teaDec k (blockAt p (8 * c))).1 ++ bytes32 (teaDec k (blockAt p (8 * c))).2) ∧
    (∀ j, 8 * (p.length / 8) ≤ j → j < p.length →
      (pldEnc table k p)[j]? = some (byteEnc table k (p.getD j 0) j) ∧
      (pldDec table k p)[j]? = some (byteDec table k (p.getD j 0) j))

/-- R171: the remainder starts over at TABLE[0] and K[0] whatever the payload's length, and TABLE[7] is never used. -/
def Obligations.RemainderStartsOverAtTableZero : Prop :=
  (∀ (table : Vector Byte 8) (k : Key) (p : List Byte) (i : Nat), i < p.length % 8 →
    (pldEnc table k p)[8 * (p.length / 8) + i]? = some (byteEnc table k (p.getD (8 * (p.length / 8) + i) 0) i)) ∧
  (∀ (table table' : Vector Byte 8) (k : Key) (p : List Byte), (∀ i, i < 7 → tableByte table i = tableByte table' i) →
    pldEnc table k p = pldEnc table' k p ∧ pldDec table k p = pldDec table' k p)

/-- R175: the two transforms undo each other, at every length. -/
def Obligations.PayloadRoundTrip : Prop :=
  ∀ (table : Vector Byte 8) (k : Key) (p : List Byte),
    pldDec table k (pldEnc table k p) = p ∧ pldEnc table k (pldDec table k p) = p

/-- R180: (1) equal chunks, (2) a changed chunk byte, (3) a changed remainder byte, and that a remainder byte keeps its low
five bits (R136), (4) concatenation after whole chunks, (5) the empty payload. -/
def Obligations.ChunksAreIndependent : Prop :=
  ∀ (table : Vector Byte 8) (k : Key) (p : List Byte),
    (∀ c c', c < p.length / 8 → c' < p.length / 8 → (p.drop (8 * c)).take 8 = (p.drop (8 * c')).take 8 →
      ((pldEnc table k p).drop (8 * c)).take 8 = ((pldEnc table k p).drop (8 * c')).take 8) ∧
    (∀ c i b j, c < p.length / 8 → i < 8 → ¬(8 * c ≤ j ∧ j < 8 * c + 8) →
      (pldEnc table k (p.set (8 * c + i) b))[j]? = (pldEnc table k p)[j]?) ∧
    (∀ i b j, 8 * (p.length / 8) ≤ i → i ≠ j → (pldEnc table k (p.set i b))[j]? = (pldEnc table k p)[j]?) ∧
    (∀ i x y, 8 * (p.length / 8) ≤ i → p[i]? = some x → (pldEnc table k p)[i]? = some y →
      y.extractLsb' 0 5 = x.extractLsb' 0 5) ∧
    (∀ q, p.length % 8 = 0 → pldEnc table k (p ++ q) = pldEnc table k p ++ pldEnc table k q) ∧
    pldEnc table k [] = []

/-- R183: PLDENC in every state. KLEN is not read. -/
def Obligations.PldencResult : Prop :=
  decode 0x00000005 = .command .pldenc ∧
  ∀ s : State, ∃ t, exec .pldenc s = .next t ∧
    (inCap s.params < s.inlen.toNat → FailsWith s t .len) ∧
    (s.inlen.toNat ≤ inCap s.params → Delivers s t (pldEnc s.params.table s.key s.input) ∧ t.outlen = s.inlen)

/-- R184: PLDDEC in every state, and that it gives back what PLDENC was given when OUTBUF is copied to INBUF. -/
def Obligations.PlddecResult : Prop :=
  decode 0x00000006 = .command .plddec ∧
  (∀ s : State, ∃ t, exec .plddec s = .next t ∧
    (inCap s.params < s.inlen.toNat → FailsWith s t .len) ∧
    (s.inlen.toNat ≤ inCap s.params → Delivers s t (pldDec s.params.table s.key s.input) ∧ t.outlen = s.inlen)) ∧
  (∀ s t u : State, s.inlen.toNat ≤ inCap s.params → exec .pldenc s = .next t →
    u.key = s.key → u.params = s.params → u.inlen = s.inlen →
    (∀ j, j < t.outlen.toNat → u.inbuf.get j = t.outbuf.get j) →
    ∃ r, exec .plddec u = .next r ∧ Delivers u r s.input)

/-! ### UTF-8 -/

/-- R176: valid is being a concatenation of sequences that each match a row, and the consequences the rule lists. -/
def Obligations.Utf8ValidIsConcatenationOfRows : Prop :=
  (∀ d : List Byte, utf8Valid d = true ↔
    ∃ seqs : List (List Byte), seqs.flatten = d ∧ ∀ q ∈ seqs, ∃ row ∈ utf8Rows, InRow row q) ∧
  (∀ d : List Byte, utf8Valid d = true → ∀ b ∈ d, b ≠ 0xC0 ∧ b ≠ 0xC1 ∧ b.toNat < 0xF5) ∧
  (∀ (b : Byte) (d : List Byte), 0xA0 ≤ b.toNat → utf8Valid (0xED :: b :: d) = false) ∧
  utf8Valid [] = true ∧ utf8Valid [0x00] = true ∧
  (∀ d : List Byte, utf8Valid (0xEF :: 0xBB :: 0xBF :: d) = utf8Valid d)

/-! ### ENCODE and DECODE -/

/-- R185, with the priority of R213: ENCODE in every state. -/
def Obligations.EncodeResult : Prop :=
  decode 0x00000009 = .command (.encode false) ∧ decode 0x00000109 = .command (.encode true) ∧
  ∀ s : State,
    (∃ t, exec (.encode true) s = .next t ∧ FailsWith s t .absent) ∧
    (∃ t, exec (.encode false) s = .next t ∧
      (s.klen.toNat ≠ 16 → FailsWith s t .keylen) ∧
      (s.klen.toNat = 16 → inCap s.params < s.inlen.toNat → FailsWith s t .len) ∧
      (s.klen.toNat = 16 → s.inlen.toNat ≤ inCap s.params →
        Delivers s t (b64Enc (pldEnc s.params.table s.key s.input)) ∧ t.outlen.toNat = 4 * ((s.inlen.toNat + 2) / 3)))

/-- R186, with the priority of R213: DECODE in every state. -/
def Obligations.DecodeResult : Prop :=
  decode 0x0000000A = .command (.decode false) ∧ decode 0x0000010A = .command (.decode true) ∧
  ∀ s : State,
    (∃ t, exec (.decode true) s = .next t ∧ FailsWith s t .absent) ∧
    (∃ t, exec (.decode false) s = .next t ∧
      (s.klen.toNat ≠ 16 → FailsWith s t .keylen) ∧
      (s.klen.toNat = 16 → inCap s.params < s.inlen.toNat → FailsWith s t .len) ∧
      (s.klen.toNat = 16 → s.inlen.toNat ≤ inCap s.params →
        (b64Dec s.input = none → FailsWith s t .b64) ∧
        (∀ c, b64Dec s.input = some c →
          (utf8Valid (pldDec s.params.table s.key c) = false → FailsWith s t .utf8) ∧
          (utf8Valid (pldDec s.params.table s.key c) = true → Delivers s t (pldDec s.params.table s.key c)))))

/-- R179, of the functions ENCODE_FN and DECODE_FN: the round trip is exact for valid UTF-8, decoding fails for anything else,
and both fail for any key length but 16. -/
def Obligations.CodecRoundTripIsExactForUtf8 : Prop :=
  ∀ (p : Params) (k : Key) (d : List Byte),
    (∃ text, encodeFn p false 16 d k = .ok text ∧
      (utf8Valid d = true → decodeFn p false 16 text k = .ok d) ∧
      (utf8Valid d = false → decodeFn p false 16 text k = .error .utf8)) ∧
    (∀ klen, klen ≠ 16 → encodeFn p false klen d k = .error .keylen ∧ decodeFn p false klen d k = .error .keylen)

/-- R179 on the unit: when the text ENCODE left is copied to INBUF, DECODE under the same key gives back the plaintext, or
ERR_UTF8 when that is not UTF-8. -/
def Obligations.DecodeGivesBackWhatEncodeTook : Prop :=
  ∀ s t u : State, s.klen = 16 → s.inlen.toNat ≤ inCap s.params → exec (.encode false) s = .next t →
    u.key = s.key → u.params = s.params → u.klen = 16 → u.inlen = t.outlen → u.inlen.toNat ≤ inCap u.params →
    (∀ j, j < t.outlen.toNat → u.inbuf.get j = t.outbuf.get j) →
    ∃ r, exec (.decode false) u = .next r ∧
      (utf8Valid s.input = true → Delivers u r s.input) ∧ (utf8Valid s.input = false → FailsWith u r .utf8)

/-! ### System commands -/

/-- R200: NOP changes nothing, its word is 0, and 0x100 is not NOP. -/
def Obligations.NopKeepsEverything : Prop :=
  (∀ s : State, exec .nop s = .next s) ∧ decode 0x00000000 = .command .nop ∧ (∀ i, decode 0x00000100 ≠ .command i)

/-- R201: ZEROIZE leaves every register but CAP zero and every byte of both buffers 0x00; CAP and TABLE keep their values. -/
def Obligations.ZeroizeClearsEverything : Prop :=
  decode 0x0000000B = .command .zeroize ∧
  ∀ s : State, ∃ t, exec .zeroize s = .next t ∧ t.err = .ok ∧ (∀ r, r ≠ .cap → t.readReg r = 0) ∧
    t.readReg .cap = BitVec.ofNat 32 (inCap s.params) ∧ t.params = s.params ∧
    (∀ j, t.inbuf.get j = 0 ∧ t.outbuf.get j = 0) ∧ t.draws = s.draws ∧ t.script = s.script ∧ t.replies = s.replies

/-! ### Failures -/

/-- R214: a command that ends with a code 1 to 5 makes exactly the three writes, and no command reports a code it may not. -/
def Obligations.FailureMakesThreeWritesOnly : Prop :=
  ∀ (i : Instr) (s t : State), i ≠ .nop → exec i s = .next t → t.err ≠ .ok → FailsWith s t t.err ∧ t.err ≠ .illegal

/-- R212: the codes each command can report, no other and each of them. -/
def Obligations.EachCommandReportsItsOwnCodes : Prop :=
  (∀ s : State, exec .nop s = .next s) ∧
  (∀ (i : Instr) (s t : State), i ≠ .nop → exec i s = .next t → t.err ∈ codesOf i) ∧
  (∀ (i : Instr) (e : ErrCode), e ∈ codesOf i → ∃ s t, exec i s = .next t ∧ t.err = e) ∧
  (∀ (w : Word) (why : IllegalWord) (s : State), decode w = .illegal why → ∃ t, launch w s = .next t ∧ t.err = .illegal)

/-- R217 and R33: the outcome of a command depends on nothing an earlier command left in STATUS, OUTLEN or OUTBUF. -/
def Obligations.OutcomeIgnoresEarlierOutcomes : Prop :=
  ∀ (i : Instr) (s t : State) (e : ErrCode) (l : Word) (m : Memory), i ≠ .nop → exec i s = .next t →
    if isBufferCommand i ∨ i = .zeroize then exec i { s with err := e, outlen := l, outbuf := m } = .next t
    else exec i { s with err := e, outlen := l, outbuf := m } = .next { t with outlen := l, outbuf := m }

/-- R31: "bytes at and above `INLEN` never affect a result". -/
def Obligations.InputAboveInlenIsNeverRead : Prop :=
  ∀ (i : Instr) (s t : State) (m : Memory), i ≠ .zeroize → (∀ j, j < s.inlen.toNat → m.get j = s.inbuf.get j) →
    exec i s = .next t → exec i { s with inbuf := m } = .next { t with inbuf := m }

/-- The write sets of R37: what each command leaves unchanged. -/
def Obligations.CommandsWriteOnlyTheirRow : Prop :=
  ∀ (i : Instr) (s t : State), exec i s = .next t → i ≠ .zeroize →
    (t.key = s.key ∧ t.klen = s.klen ∧ t.inlen = s.inlen ∧ t.idx = s.idx ∧ (∀ j, t.inbuf.get j = s.inbuf.get j)) ∧
    (i ∉ [.blkenc, .blkdec] → t.v0 = s.v0 ∧ t.v1 = s.v1) ∧
    (i ∉ [.bytenc, .bytdec] → t.sbyte = s.sbyte) ∧
    (isBufferCommand i = false → t.outlen = s.outlen ∧ (∀ j, t.outbuf.get j = s.outbuf.get j)) ∧
    (i = .nop → t.err = s.err)

/-! ### The host's side -/

/-- R67: an access answers buserr exactly when it is unmapped, misaligned or of a wrong width. -/
def Obligations.IllegalAccessesAreRefused : Prop :=
  ∀ (s : State) (rest : List HostEvent) (a : Offset) (n v : Nat),
    (s.script = .read a n :: rest → (step s = .refused .buserr ↔ ¬ LegalAccess s.params a n)) ∧
    (s.script = .write a n v :: rest → (step s = .refused .buserr ↔ ¬ LegalAccess s.params a n))

/-- R68: what a read of each register returns, with no side effect. -/
def Obligations.RegisterReadsReturnTheirValues : Prop :=
  ∀ (s : State) (rest : List HostEvent), ∀ x ∈ ([
      (0x00, 0), (0x04, BitVec.ofNat 32 (codeNumber s.err)), (0x08, s.inlen), (0x0C, s.outlen), (0x10, s.klen), (0x14, s.idx),
      (0x18, BitVec.ofNat 32 s.sbyte.toNat), (0x1C, BitVec.ofNat 32 (inCap s.params)), (0x20, s.v0), (0x24, s.v1),
      (0x30, s.key.k0), (0x34, s.key.k1), (0x38, s.key.k2), (0x3C, s.key.k3)] : List (Offset × Word)),
    s.script = .read x.1 4 :: rest → step s = .next (answered s rest (.word x.2))

/-- R68: what a write of each read-write register stores. -/
def Obligations.RegisterWritesStoreTheirValue : Prop :=
  ∀ (s : State) (rest : List HostEvent) (v : Nat), ∀ x ∈ ([
      (0x08, { s with inlen := BitVec.ofNat 32 v }), (0x10, { s with klen := BitVec.ofNat 32 v }),
      (0x14, { s with idx := BitVec.ofNat 32 v }), (0x18, { s with sbyte := BitVec.ofNat 8 v }),
      (0x20, { s with v0 := BitVec.ofNat 32 v }), (0x24, { s with v1 := BitVec.ofNat 32 v }),
      (0x30, { s with key := ⟨BitVec.ofNat 32 v, s.key.k1, s.key.k2, s.key.k3⟩ }),
      (0x34, { s with key := ⟨s.key.k0, BitVec.ofNat 32 v, s.key.k2, s.key.k3⟩ }),
      (0x38, { s with key := ⟨s.key.k0, s.key.k1, BitVec.ofNat 32 v, s.key.k3⟩ }),
      (0x3C, { s with key := ⟨s.key.k0, s.key.k1, s.key.k2, BitVec.ofNat 32 v⟩ })] : List (Offset × State)),
    s.script = .write x.1 4 v :: rest → step s = .next (answered x.2 rest .done)

/-- R69: writes to read-only places answer ok and change nothing; a read of CMD answers ok and 0. -/
def Obligations.ReadOnlyPlacesIgnoreWrites : Prop :=
  ∀ (s : State) (rest : List HostEvent) (v i : Nat),
    (∀ a ∈ ([0x04, 0x0C, 0x1C] : List Offset), s.script = .write a 4 v :: rest → step s = .next (answered s rest .done)) ∧
    (i < outCap s.params → s.script = .write (BitVec.ofNat 22 (0x200000 + i)) 1 v :: rest →
      step s = .next (answered s rest .done)) ∧
    (i % 4 = 0 → i < outCap s.params → s.script = .write (BitVec.ofNat 22 (0x200000 + i)) 4 v :: rest →
      step s = .next (answered s rest .done)) ∧
    (s.script = .read 0 4 :: rest → step s = .next (answered s rest (.word 0)))

/-- R68, R63, R64: byte and word reads of the buffers, the byte at the lowest offset in bits [7:0]. -/
def Obligations.BufferReadsAreLittleEndian : Prop :=
  ∀ (s : State) (rest : List HostEvent) (i : Nat),
    let value (m : Memory) : Word := BitVec.ofNat 32
      ((m.get i).toNat + 2 ^ 8 * (m.get (i + 1)).toNat + 2 ^ 16 * (m.get (i + 2)).toNat + 2 ^ 24 * (m.get (i + 3)).toNat)
    (i < inCap s.params → s.script = .read (BitVec.ofNat 22 (0x100000 + i)) 1 :: rest →
      step s = .next (answered s rest (.byte (s.inbuf.get i)))) ∧
    (i % 4 = 0 → i < inCap s.params → s.script = .read (BitVec.ofNat 22 (0x100000 + i)) 4 :: rest →
      step s = .next (answered s rest (.word (value s.inbuf)))) ∧
    (i < outCap s.params → s.script = .read (BitVec.ofNat 22 (0x200000 + i)) 1 :: rest →
      step s = .next (answered s rest (.byte (s.outbuf.get i)))) ∧
    (i % 4 = 0 → i < outCap s.params → s.script = .read (BitVec.ofNat 22 (0x200000 + i)) 4 :: rest →
      step s = .next (answered s rest (.word (value s.outbuf))))

/-- R68, R63: byte and word writes of INBUF, and that every other byte reads as before. -/
def Obligations.InbufWritesAreLittleEndian : Prop :=
  ∀ (s : State) (rest : List HostEvent) (i v : Nat),
    (i < inCap s.params → s.script = .write (BitVec.ofNat 22 (0x100000 + i)) 1 v :: rest →
      ∃ m, step s = .next (answered { s with inbuf := m } rest .done) ∧
        ∀ j, m.get j = if j = i then BitVec.ofNat 8 v else s.inbuf.get j) ∧
    (i % 4 = 0 → i < inCap s.params → s.script = .write (BitVec.ofNat 22 (0x100000 + i)) 4 v :: rest →
      ∃ m, step s = .next (answered { s with inbuf := m } rest .done) ∧
        ∀ j, m.get j = if i ≤ j ∧ j < i + 4 then BitVec.ofNat 8 (v / 2 ^ (8 * (j - i))) else s.inbuf.get j)

/-- R240, R38: a reset puts zero in every register but CAP, CAP still reads IN_CAP, and the rest of the host's list is served
after it. Of the buffer bytes the spec says nothing, and neither does this. That the event is one of the host's list is the
model's choice (log entry 8). -/
def Obligations.ResetEventGivesTheResetRegisters : Prop :=
  ∀ (s : State) (rest : List HostEvent), s.script = .reset :: rest →
    ∃ t, step s = .next t ∧ (∀ r, r ≠ .cap → t.readReg r = 0) ∧ t.readReg .cap = BitVec.ofNat 32 (inCap s.params) ∧
      t.params = s.params ∧ t.script = rest ∧ t.replies = s.replies

/-- R38: the registers of the reset state. -/
def Obligations.ResetStateRegisters : Prop :=
  (∀ r, r ≠ .cap → State.reset.readReg r = 0) ∧ State.reset.err = .ok ∧
  State.reset.readReg .cap = BitVec.ofNat 32 (inCap State.reset.params)

/-! ### The whole machine -/

/-- R10: the constraints on the two capacities, and that every capacity R10 allows is one a unit can have. -/
def Obligations.CapacitiesMeetTheirConstraints : Prop :=
  (∀ p : Params, inCap p % 4 = 0 ∧ 4 ≤ inCap p ∧ inCap p ≤ 2 ^ 20 ∧
    outCap p = 4 * ((inCap p + 2) / 3) ∧ outCap p % 4 = 0 ∧ outCap p ≤ 1398104) ∧
  (∀ c, c % 4 = 0 → 4 ≤ c → c ≤ 2 ^ 20 → ∃ p, inCap p = c) ∧ (∃ p, inCap p = 4096 ∧ outCap p = 5464)

/-- R11: OUTBUF has room for every result. -/
def Obligations.OutbufHasRoomForEveryResult : Prop :=
  ∀ (p : Params) (k : Key) (d : List Byte), d.length ≤ inCap p →
    (b64Enc d).length ≤ 4 * ((d.length + 2) / 3) ∧ (b64Enc (pldEnc p.table k d)).length ≤ 4 * ((d.length + 2) / 3) ∧
    4 * ((d.length + 2) / 3) ≤ outCap p ∧
    (pldEnc p.table k d).length ≤ d.length ∧ (pldDec p.table k d).length ≤ d.length ∧ inCap p ≤ outCap p ∧
    (∀ c, b64Dec d = some c → c.length ≤ 3 * d.length / 4 ∧ (pldDec p.table k c).length ≤ 3 * d.length / 4)

/-- The invariant holds after reset. -/
def Obligations.InvariantHoldsAtReset : Prop := Inv State.reset

/-- Every step keeps the invariant: the canonical form and size of both buffers (log entry 6), OUTLEN <= OUT_CAP (R27), zeros
above OUTLEN (R32), no result before a command (R38), no output after a failure (R214). -/
def Obligations.EveryStepKeepsTheInvariant : Prop :=
  ∀ s t : State, Inv s → step s = .next t → Inv t

/-- R39 and R30: the step is the relation that takes TABLE and IN_CAP as its argument, over the state without them; so nothing
the host can do changes them, and CAP always reads IN_CAP. -/
def Obligations.NoStepChangesTheParameters : Prop :=
  ∀ s : State,
    step s = mapNext (fun u => { toUnitState := u, params := s.params }) (stepUnder s.params s.toUnitState) ∧
    (∀ t, step s = .next t → t.params = s.params ∧ t.readReg .cap = s.readReg .cap ∧
      t.readReg .cap = BitVec.ofNat 32 (inCap s.params))

/-- R21: the key is written only by the host's writes to K, by ZEROIZE, and by a reset. -/
def Obligations.OnlyKeyWritesZeroizeAndResetChangeTheKey : Prop :=
  ∀ (s t : State) (e : HostEvent) (rest : List HostEvent), s.script = e :: rest → step s = .next t → t.key ≠ s.key →
    e = .reset ∨ (∃ v, e = .write 0 4 v ∧ BitVec.ofNat 32 v = (0x0000000B : Word)) ∨
    (∃ v, ∃ a ∈ ([0x30, 0x34, 0x38, 0x3C] : List Offset), e = .write a 4 v)

/-- R255, R203: a script none of whose accesses answers buserr runs to its end in as many steps as it has events, answering
each access once; any other goes wrong. -/
def Obligations.ScriptsRunToTheirEndOrGoWrong : Prop :=
  ∀ s : State,
    (scriptOk s = true → ∃ t : State, Host.Core.run core s.script.length s = .next t ∧ runOver t = true ∧
      t.replies.length = s.replies.length + (s.script.filter (fun e => decide (e ≠ .reset))).length) ∧
    (scriptOk s = false → Host.Core.run core s.script.length s = .refused Refusal.buserr)
end

