-- ==== Sys2Proof/Laws/Cipher.lean ====
section
/-! SUPPORT. The laws of packing, of one pass of each cipher loop, and of the base64 alphabet. -/

namespace Sys2Proof.Machine

/-! ### Packing -/

theorem le32_byteOf (w : Word) : le32 (byteOf w 0) (byteOf w 1) (byteOf w 2) (byteOf w 3) = w := by
  unfold le32 byteOf
  ext i hi
  simp only [BitVec.getElem_append, BitVec.getElem_extractLsb']
  split
  · simp [BitVec.getLsbD_eq_getElem hi]
  · split
    · rw [show 8 * 1 + (i - 8) = i by omega, BitVec.getLsbD_eq_getElem hi]
    · split
      · rw [show 8 * 2 + (i - 8 - 8) = i by omega, BitVec.getLsbD_eq_getElem hi]
      · rw [show 8 * 3 + (i - 8 - 8 - 8) = i by omega, BitVec.getLsbD_eq_getElem hi]

theorem byteOf_le32_zero (b0 b1 b2 b3 : Byte) : byteOf (le32 b0 b1 b2 b3) 0 = b0 := by
  unfold le32 byteOf
  ext i hi
  simp only [BitVec.getElem_extractLsb', BitVec.getLsbD_append]
  rw [if_pos (by omega), show 8 * 0 + i = i by omega, BitVec.getLsbD_eq_getElem hi]

theorem byteOf_le32_one (b0 b1 b2 b3 : Byte) : byteOf (le32 b0 b1 b2 b3) 1 = b1 := by
  unfold le32 byteOf
  ext i hi
  simp only [BitVec.getElem_extractLsb', BitVec.getLsbD_append]
  rw [if_neg (by omega), if_pos (by omega), show 8 * 1 + i - 8 = i by omega, BitVec.getLsbD_eq_getElem hi]

theorem byteOf_le32_two (b0 b1 b2 b3 : Byte) : byteOf (le32 b0 b1 b2 b3) 2 = b2 := by
  unfold le32 byteOf
  ext i hi
  simp only [BitVec.getElem_extractLsb', BitVec.getLsbD_append]
  rw [if_neg (by omega), if_neg (by omega), if_pos (by omega), show 8 * 2 + i - 8 - 8 = i by omega, BitVec.getLsbD_eq_getElem hi]

theorem byteOf_le32_three (b0 b1 b2 b3 : Byte) : byteOf (le32 b0 b1 b2 b3) 3 = b3 := by
  unfold le32 byteOf
  ext i hi
  simp only [BitVec.getElem_extractLsb', BitVec.getLsbD_append]
  rw [if_neg (by omega), if_neg (by omega), if_neg (by omega), show 8 * 3 + i - 8 - 8 - 8 = i by omega, BitVec.getLsbD_eq_getElem hi]

@[simp] theorem bytes32_le32 (b0 b1 b2 b3 : Byte) : bytes32 (le32 b0 b1 b2 b3) = [b0, b1, b2, b3] := by
  simp [bytes32, byteOf_le32_zero, byteOf_le32_one, byteOf_le32_two, byteOf_le32_three]

@[simp] theorem length_bytes32 (w : Word) : (bytes32 w).length = 4 := rfl

@[simp] theorem length_bytesOfBlock (v : Word × Word) : (bytesOfBlock v).length = 8 := rfl

/-! ### One round of the block cipher -/

@[simp] theorem decRound_encRound (k : Key) (t : TeaWork) : decRound k (encRound k t) = t := by
  simp [decRound, encRound]

@[simp] theorem encRound_decRound (k : Key) (t : TeaWork) : encRound k (decRound k t) = t := by
  simp [decRound, encRound]

theorem sum_iterate_encRound (k : Key) (n : Nat) (t : TeaWork) :
    (Nat.iterate (encRound k) n t).sum = t.sum + BitVec.ofNat 32 n * delta := by
  induction n generalizing t with
  | zero => simp [Nat.iterate]
  | succ n ih =>
    rw [Nat.iterate, ih]
    simp only [encRound, BitVec.ofNat_add, show BitVec.ofNat 32 1 = 1 from rfl]
    ring

theorem sum_iterate_decRound (k : Key) (n : Nat) (t : TeaWork) :
    (Nat.iterate (decRound k) n t).sum = t.sum - BitVec.ofNat 32 n * delta := by
  induction n generalizing t with
  | zero => simp [Nat.iterate]
  | succ n ih =>
    rw [Nat.iterate, ih]
    simp only [decRound, BitVec.ofNat_add, show BitVec.ofNat 32 1 = 1 from rfl]
    ring

/-! ### One iteration of the byte cipher -/

@[simp] theorem byteDecStep_byteEncStep (q : Nat) (b : Byte) : byteDecStep q (byteEncStep q b) = b := by
  simp [byteDecStep, byteEncStep, BitVec.ofNat_add]

@[simp] theorem byteEncStep_byteDecStep (q : Nat) (b : Byte) : byteEncStep q (byteDecStep q b) = b := by
  simp only [byteDecStep, byteEncStep, BitVec.ofNat_add, BitVec.ofNat_toNat, BitVec.setWidth_eq]
  ring

theorem iterate_byteEncStep (q n : Nat) (b : Byte) : Nat.iterate (byteEncStep q) n b = b + BitVec.ofNat 8 (n * q) := by
  induction n generalizing b with
  | zero => simp [Nat.iterate]
  | succ n ih =>
    rw [Nat.iterate, ih]
    simp only [byteEncStep, BitVec.ofNat_add, BitVec.ofNat_toNat, BitVec.setWidth_eq, Nat.succ_mul]
    ring

theorem iterate_byteDecStep (q n : Nat) (b : Byte) : Nat.iterate (byteDecStep q) n b = b - BitVec.ofNat 8 (n * q) := by
  induction n generalizing b with
  | zero => simp [Nat.iterate]
  | succ n ih =>
    rw [Nat.iterate, ih]
    simp only [byteDecStep, BitVec.ofNat_add, Nat.succ_mul]
    ring

/-! ### The base64 alphabet -/

@[simp] theorem b64Val_b64Char (x : BitVec 6) : b64Val (b64Char x) = some x := by revert x; decide +kernel

theorem b64Char_of_b64Val {c : Byte} {x : BitVec 6} (h : b64Val c = some x) : b64Char x = c := by
  have all : ∀ c : Byte, ∀ x ∈ b64Val c, b64Char x = c := by decide +kernel
  exact all c x h

@[simp] theorem b64Val_b64Pad : b64Val b64Pad = none := by decide

/-! ### Lengths -/

theorem length_mapRemainder (f : Byte → Nat → Byte) (j : Nat) (l : List Byte) : (mapRemainder f j l).length = l.length := by
  induction l generalizing j with
  | nil => rfl
  | cons b t ih => simp [mapRemainder, ih]

theorem getElem?_mapRemainder (f : Byte → Nat → Byte) (j : Nat) (l : List Byte) (i : Nat) :
    (mapRemainder f j l)[i]? = l[i]?.map (fun b => f b (j + i)) := by
  induction l generalizing i j with
  | nil => simp [mapRemainder]
  | cons b t ih =>
    cases i with
    | zero => simp [mapRemainder]
    | succ i => simp [mapRemainder, ih, Nat.add_assoc, Nat.add_comm 1 i]

end Sys2Proof.Machine
end

