-- ==== Sys2Proof/Laws/Memory.lean ====
section
/-! SUPPORT. The laws of the buffers: read after write, and that every operation keeps the canonical form. -/

namespace Sys2Proof.Machine

/-! ### Listings -/

theorem cellAt_putCell (c : List Host.Cell) (i j : Nat) (v : Byte) :
    cellAt (putCell c i v) j = if i = j then some v else cellAt c j := by
  induction c with
  | nil => simp [putCell, cellAt]
  | cons h t ih =>
    obtain ⟨a, w⟩ := h
    simp only [putCell]
    split
    · simp [cellAt]
    · split
      · subst_vars; simp only [cellAt]; split <;> rfl
      · simp only [cellAt, ih]; split <;> split <;> simp_all

theorem cellAt_dropCell (c : List Host.Cell) (i j : Nat) :
    cellAt (dropCell c i) j = if i = j then none else cellAt c j := by
  induction c with
  | nil => simp [dropCell, cellAt]
  | cons h t ih =>
    obtain ⟨a, w⟩ := h
    simp only [dropCell]
    split
    · rw [ih]; subst_vars; simp only [cellAt]; split <;> rfl
    · simp only [cellAt, ih]; split <;> split <;> simp_all

theorem cellAt_cellsOf (d : List Byte) (i j : Nat) :
    cellAt (cellsOf i d) j = if i ≤ j ∧ j < i + d.length ∧ d.getD (j - i) 0 ≠ 0 then some (d.getD (j - i) 0) else none := by
  induction d generalizing i with
  | nil => simp [cellsOf, cellAt]
  | cons v t ih =>
    have shift : i + 1 ≤ j → (v :: t).getD (j - i) 0 = t.getD (j - (i + 1)) 0 := fun h => by
      rw [show j - i = (j - (i + 1)) + 1 by omega]; rfl
    rcases Nat.lt_trichotomy i j with h | rfl | h
    · have hij : i ≠ j := by omega
      have hl : i + 1 + t.length = i + (t.length + 1) := by omega
      simp only [cellsOf]
      split <;> simp only [cellAt, hij, if_false, ih, shift h, List.length_cons, hl, Nat.succ_le_of_lt h, Nat.le_of_lt h]
    · simp only [cellsOf]
      by_cases hv : v = 0
      · rw [if_pos hv, ih]; simp [hv]
      · rw [if_neg hv]; simp only [cellAt]; simp; exact hv
    · have hij : i ≠ j := by omega
      have h1 : ¬ i + 1 ≤ j := by omega
      have h2 : ¬ i ≤ j := by omega
      simp only [cellsOf]
      split <;> simp [cellAt, hij, ih, h1, h2]

/-! ### Read after write -/

theorem Fill.byteAt_of_known {f : Fill} {v : Byte} (h : f.known = some v) (i : Nat) : f.byteAt i = v := by
  cases f <;> simp_all [Fill.known, Fill.byteAt]

theorem Memory.get_set (m : Memory) (i j : Nat) (v : Byte) : (m.set i v).get j = if i = j then v else m.get j := by
  unfold Memory.set
  split
  · rename_i h
    simp only [Memory.get, cellAt_dropCell]
    split
    · simp [Fill.byteAt_of_known h]
    · rfl
  · simp only [Memory.get, cellAt_putCell]
    split <;> rfl

@[simp] theorem Memory.get_set_same (m : Memory) (i : Nat) (v : Byte) : (m.set i v).get i = v := by simp [Memory.get_set]

theorem Memory.get_set_other {m : Memory} {i j : Nat} (v : Byte) (h : i ≠ j) : (m.set i v).get j = m.get j := by
  simp [Memory.get_set, h]

theorem Memory.get_setWord (m : Memory) (i j : Nat) (w : Word) :
    (m.setWord i w).get j = if i ≤ j ∧ j < i + 4 then byteOf w (j - i) else m.get j := by
  simp only [Memory.setWord, Memory.get_set]
  by_cases h : i ≤ j ∧ j < i + 4
  · obtain rfl | rfl | rfl | rfl : j = i ∨ j = i + 1 ∨ j = i + 2 ∨ j = i + 3 := by omega
    all_goals simp
  · have : i ≠ j ∧ i + 1 ≠ j ∧ i + 2 ≠ j ∧ i + 3 ≠ j := by omega
    simp [h, this]

@[simp] theorem Memory.get_zeros (i : Nat) : Memory.zeros.get i = 0 := rfl

@[simp] theorem Memory.get_ofBytes (d : List Byte) (i : Nat) : (Memory.ofBytes d).get i = d.getD i 0 := by
  simp only [Memory.get, Memory.ofBytes, cellAt_cellsOf, Fill.byteAt, Nat.zero_le, Nat.zero_add, Nat.sub_zero, true_and]
  split
  · rfl
  · rename_i h
    by_cases hl : i < d.length
    · by_contra hz
      exact h ⟨hl, fun e => hz (by rw [e]; rfl)⟩
    · rw [List.getD_eq_default _ _ (Nat.le_of_not_lt hl)]; rfl

@[simp] theorem Memory.length_read (m : Memory) (n : Nat) : (m.read n).length = n := by simp [Memory.read]

theorem Memory.getElem?_read (m : Memory) (n i : Nat) : (m.read n)[i]? = if i < n then some (m.get i) else none := by
  by_cases h : i < n <;> simp [Memory.read, h]

/-- A command's input depends on the bytes below its length alone. -/
theorem Memory.read_congr {m m' : Memory} {n : Nat} (h : ∀ i < n, m.get i = m'.get i) : m.read n = m'.read n := by
  simp only [Memory.read, List.map_inj_left, List.mem_range]
  exact h

/-! ### The canonical form -/

theorem cellsOk_mono {f : Fill} {size lo lo' : Nat} {c : List Host.Cell} (h : lo' ≤ lo) (ok : cellsOk f size lo c = true) :
    cellsOk f size lo' c = true := by
  cases c with
  | nil => rfl
  | cons x t =>
    simp only [cellsOk, Bool.and_eq_true, decide_eq_true_eq] at ok ⊢
    exact ⟨⟨⟨by omega, ok.1.1.2⟩, ok.1.2⟩, ok.2⟩

theorem cellsOk_putCell {f : Fill} {size lo i : Nat} {v : Byte} {c : List Host.Cell} (hi : i < size) (hlo : lo ≤ i)
    (hv : f.known ≠ some v) (ok : cellsOk f size lo c = true) : cellsOk f size lo (putCell c i v) = true := by
  induction c generalizing lo with
  | nil => simp [putCell, cellsOk, hi, hlo, hv]
  | cons x t ih =>
    obtain ⟨a, w⟩ := x
    simp only [cellsOk, Bool.and_eq_true, decide_eq_true_eq] at ok
    obtain ⟨⟨⟨h1, h2⟩, h3⟩, h4⟩ := ok
    simp only [putCell]
    split
    · rename_i hia
      simp only [cellsOk, Bool.and_eq_true, decide_eq_true_eq]
      exact ⟨⟨⟨hlo, hi⟩, hv⟩, ⟨⟨⟨hia, h2⟩, h3⟩, h4⟩⟩
    · split
      · subst_vars
        simp only [cellsOk, Bool.and_eq_true, decide_eq_true_eq]
        exact ⟨⟨⟨hlo, hi⟩, hv⟩, h4⟩
      · simp only [cellsOk, Bool.and_eq_true, decide_eq_true_eq]
        exact ⟨⟨⟨h1, h2⟩, h3⟩, ih (by omega) h4⟩

theorem cellsOk_dropCell {f : Fill} {size lo i : Nat} {c : List Host.Cell} (ok : cellsOk f size lo c = true) :
    cellsOk f size lo (dropCell c i) = true := by
  induction c generalizing lo with
  | nil => rfl
  | cons x t ih =>
    obtain ⟨a, w⟩ := x
    simp only [cellsOk, Bool.and_eq_true, decide_eq_true_eq] at ok
    obtain ⟨⟨⟨h1, h2⟩, h3⟩, h4⟩ := ok
    simp only [dropCell]
    split
    · exact cellsOk_mono (by omega) (ih h4)
    · simp only [cellsOk, Bool.and_eq_true, decide_eq_true_eq]
      exact ⟨⟨⟨h1, h2⟩, h3⟩, ih h4⟩

theorem cellsOk_cellsOf {size i : Nat} {d : List Byte} (h : i + d.length ≤ size) :
    cellsOk .zero size i (cellsOf i d) = true := by
  induction d generalizing i with
  | nil => rfl
  | cons v t ih =>
    simp only [List.length_cons] at h
    simp only [cellsOf]
    split
    · exact cellsOk_mono (Nat.le_succ i) (ih (by omega))
    · rename_i hv
      simp only [cellsOk, Bool.and_eq_true, decide_eq_true_eq]
      exact ⟨⟨⟨le_refl i, by omega⟩, fun e => hv (by simpa [Fill.known] using e.symm)⟩, ih (by omega)⟩

theorem Memory.wf_set {m : Memory} {size i : Nat} (v : Byte) (hi : i < size) (ok : m.wf size = true) :
    (m.set i v).wf size = true := by
  unfold Memory.set
  split
  · exact cellsOk_dropCell ok
  · exact cellsOk_putCell hi (Nat.zero_le i) ‹_› ok

theorem Memory.wf_setWord {m : Memory} {size i : Nat} (w : Word) (hi : i + 4 ≤ size) (ok : m.wf size = true) :
    (m.setWord i w).wf size = true :=
  Memory.wf_set _ (by omega) (Memory.wf_set _ (by omega) (Memory.wf_set _ (by omega) (Memory.wf_set _ (by omega) ok)))

theorem Memory.wf_store {m : Memory} {size i n : Nat} (v : Nat) (hn : n = 1 ∨ n = 4) (hi : i + n ≤ size)
    (ok : m.wf size = true) : (m.store i n v).wf size = true := by
  unfold Memory.store
  split
  · exact Memory.wf_set _ (by omega) ok
  · exact Memory.wf_setWord _ (by omega) ok

@[simp] theorem Memory.wf_zeros (size : Nat) : Memory.zeros.wf size = true := rfl

@[simp] theorem Memory.wf_unspecified (d size : Nat) : (Memory.mk (.unspecified d) []).wf size = true := rfl

theorem Memory.wf_ofBytes {d : List Byte} {size : Nat} (h : d.length ≤ size) : (Memory.ofBytes d).wf size = true :=
  cellsOk_cellsOf (by omega)

@[simp] theorem Memory.set_fill (m : Memory) (i : Nat) (v : Byte) : (m.set i v).fill = m.fill := by
  unfold Memory.set; split <;> rfl

@[simp] theorem Memory.setWord_fill (m : Memory) (i : Nat) (w : Word) : (m.setWord i w).fill = m.fill := by
  simp [Memory.setWord]

@[simp] theorem Memory.store_fill (m : Memory) (i n v : Nat) : (m.store i n v).fill = m.fill := by
  unfold Memory.store; split <;> simp

/-- Equal memories are equal data: two buffers in canonical form over zeros that read alike are one. -/
theorem cells_ext {size lo : Nat} {c c' : List Host.Cell} (h : cellsOk .zero size lo c = true)
    (h' : cellsOk .zero size lo c' = true) (e : ∀ i, cellAt c i = cellAt c' i) : c = c' := by
  have below : ∀ {lo i : Nat} {c : List Host.Cell}, cellsOk .zero size lo c = true → i < lo → cellAt c i = none := by
    intro lo i c
    induction c generalizing lo with
    | nil => intros; rfl
    | cons x t ih =>
      obtain ⟨a, v⟩ := x
      intro ok hi
      simp only [cellsOk, Bool.and_eq_true, decide_eq_true_eq] at ok
      have hne : a ≠ i := by omega
      simp only [cellAt, hne, if_false]
      exact ih ok.2 (by omega)
  induction c generalizing lo c' with
  | nil =>
    cases c' with
    | nil => rfl
    | cons x t => obtain ⟨a, v⟩ := x; have := e a; simp [cellAt] at this
  | cons x t ih =>
    obtain ⟨a, v⟩ := x
    cases c' with
    | nil => have := e a; simp [cellAt] at this
    | cons x' t' =>
      obtain ⟨a', v'⟩ := x'
      simp only [cellsOk, Bool.and_eq_true, decide_eq_true_eq] at h h'
      have haa : a = a' := by
        by_contra hne
        rcases Nat.lt_or_gt_of_ne hne with hlt | hlt
        · have := e a
          simp only [cellAt, if_true, Ne.symm hne, if_false, below h'.2 (show a < a' + 1 by omega)] at this
          simp at this
        · have := e a'
          simp only [cellAt, if_true, hne, if_false, below h.2 (show a' < a + 1 by omega)] at this
          simp at this
      subst haa
      have hv : v = v' := by have := e a; simpa [cellAt] using this
      subst hv
      congr 1
      refine ih h.2 h'.2 fun i => ?_
      by_cases hai : a = i
      · subst hai; rw [below h.2 (Nat.lt_succ_self a), below h'.2 (Nat.lt_succ_self a)]
      · have := e i; simpa [cellAt, hai] using this

end Sys2Proof.Machine
end

