-- ==== Sys2Proof/Laws/State.lean ====
section
/-! SUPPORT. One lemma per field of State and per update, so that no proof unfolds a record update. -/

namespace Sys2Proof.Machine

variable (s : State)

/-! ### setErr -/

@[simp] theorem State.setErr_err (e : ErrCode) : (s.setErr e).err = e := rfl
@[simp] theorem State.setErr_inlen (e : ErrCode) : (s.setErr e).inlen = s.inlen := rfl
@[simp] theorem State.setErr_outlen (e : ErrCode) : (s.setErr e).outlen = s.outlen := rfl
@[simp] theorem State.setErr_klen (e : ErrCode) : (s.setErr e).klen = s.klen := rfl
@[simp] theorem State.setErr_idx (e : ErrCode) : (s.setErr e).idx = s.idx := rfl
@[simp] theorem State.setErr_sbyte (e : ErrCode) : (s.setErr e).sbyte = s.sbyte := rfl
@[simp] theorem State.setErr_v0 (e : ErrCode) : (s.setErr e).v0 = s.v0 := rfl
@[simp] theorem State.setErr_v1 (e : ErrCode) : (s.setErr e).v1 = s.v1 := rfl
@[simp] theorem State.setErr_key (e : ErrCode) : (s.setErr e).key = s.key := rfl
@[simp] theorem State.setErr_inbuf (e : ErrCode) : (s.setErr e).inbuf = s.inbuf := rfl
@[simp] theorem State.setErr_outbuf (e : ErrCode) : (s.setErr e).outbuf = s.outbuf := rfl
@[simp] theorem State.setErr_params (e : ErrCode) : (s.setErr e).params = s.params := rfl
@[simp] theorem State.setErr_draws (e : ErrCode) : (s.setErr e).draws = s.draws := rfl
@[simp] theorem State.setErr_script (e : ErrCode) : (s.setErr e).script = s.script := rfl
@[simp] theorem State.setErr_replies (e : ErrCode) : (s.setErr e).replies = s.replies := rfl

/-! ### setBlock -/

@[simp] theorem State.setBlock_err (b : Word × Word) : (s.setBlock b).err = s.err := rfl
@[simp] theorem State.setBlock_inlen (b : Word × Word) : (s.setBlock b).inlen = s.inlen := rfl
@[simp] theorem State.setBlock_outlen (b : Word × Word) : (s.setBlock b).outlen = s.outlen := rfl
@[simp] theorem State.setBlock_klen (b : Word × Word) : (s.setBlock b).klen = s.klen := rfl
@[simp] theorem State.setBlock_idx (b : Word × Word) : (s.setBlock b).idx = s.idx := rfl
@[simp] theorem State.setBlock_sbyte (b : Word × Word) : (s.setBlock b).sbyte = s.sbyte := rfl
@[simp] theorem State.setBlock_v0 (b : Word × Word) : (s.setBlock b).v0 = b.1 := rfl
@[simp] theorem State.setBlock_v1 (b : Word × Word) : (s.setBlock b).v1 = b.2 := rfl
@[simp] theorem State.setBlock_key (b : Word × Word) : (s.setBlock b).key = s.key := rfl
@[simp] theorem State.setBlock_inbuf (b : Word × Word) : (s.setBlock b).inbuf = s.inbuf := rfl
@[simp] theorem State.setBlock_outbuf (b : Word × Word) : (s.setBlock b).outbuf = s.outbuf := rfl
@[simp] theorem State.setBlock_params (b : Word × Word) : (s.setBlock b).params = s.params := rfl
@[simp] theorem State.setBlock_draws (b : Word × Word) : (s.setBlock b).draws = s.draws := rfl
@[simp] theorem State.setBlock_script (b : Word × Word) : (s.setBlock b).script = s.script := rfl
@[simp] theorem State.setBlock_replies (b : Word × Word) : (s.setBlock b).replies = s.replies := rfl

/-! ### setByte -/

@[simp] theorem State.setByte_err (b : Byte) : (s.setByte b).err = s.err := rfl
@[simp] theorem State.setByte_inlen (b : Byte) : (s.setByte b).inlen = s.inlen := rfl
@[simp] theorem State.setByte_outlen (b : Byte) : (s.setByte b).outlen = s.outlen := rfl
@[simp] theorem State.setByte_klen (b : Byte) : (s.setByte b).klen = s.klen := rfl
@[simp] theorem State.setByte_idx (b : Byte) : (s.setByte b).idx = s.idx := rfl
@[simp] theorem State.setByte_sbyte (b : Byte) : (s.setByte b).sbyte = b := rfl
@[simp] theorem State.setByte_v0 (b : Byte) : (s.setByte b).v0 = s.v0 := rfl
@[simp] theorem State.setByte_v1 (b : Byte) : (s.setByte b).v1 = s.v1 := rfl
@[simp] theorem State.setByte_key (b : Byte) : (s.setByte b).key = s.key := rfl
@[simp] theorem State.setByte_inbuf (b : Byte) : (s.setByte b).inbuf = s.inbuf := rfl
@[simp] theorem State.setByte_outbuf (b : Byte) : (s.setByte b).outbuf = s.outbuf := rfl
@[simp] theorem State.setByte_params (b : Byte) : (s.setByte b).params = s.params := rfl
@[simp] theorem State.setByte_draws (b : Byte) : (s.setByte b).draws = s.draws := rfl
@[simp] theorem State.setByte_script (b : Byte) : (s.setByte b).script = s.script := rfl
@[simp] theorem State.setByte_replies (b : Byte) : (s.setByte b).replies = s.replies := rfl

/-! ### deliver -/

@[simp] theorem State.deliver_err (d : List Byte) : (s.deliver d).err = .ok := rfl
@[simp] theorem State.deliver_inlen (d : List Byte) : (s.deliver d).inlen = s.inlen := rfl
@[simp] theorem State.deliver_outlen (d : List Byte) : (s.deliver d).outlen = BitVec.ofNat 32 d.length := rfl
@[simp] theorem State.deliver_klen (d : List Byte) : (s.deliver d).klen = s.klen := rfl
@[simp] theorem State.deliver_idx (d : List Byte) : (s.deliver d).idx = s.idx := rfl
@[simp] theorem State.deliver_sbyte (d : List Byte) : (s.deliver d).sbyte = s.sbyte := rfl
@[simp] theorem State.deliver_v0 (d : List Byte) : (s.deliver d).v0 = s.v0 := rfl
@[simp] theorem State.deliver_v1 (d : List Byte) : (s.deliver d).v1 = s.v1 := rfl
@[simp] theorem State.deliver_key (d : List Byte) : (s.deliver d).key = s.key := rfl
@[simp] theorem State.deliver_inbuf (d : List Byte) : (s.deliver d).inbuf = s.inbuf := rfl
@[simp] theorem State.deliver_outbuf (d : List Byte) : (s.deliver d).outbuf = Memory.ofBytes d := rfl
@[simp] theorem State.deliver_params (d : List Byte) : (s.deliver d).params = s.params := rfl
@[simp] theorem State.deliver_draws (d : List Byte) : (s.deliver d).draws = s.draws := rfl
@[simp] theorem State.deliver_script (d : List Byte) : (s.deliver d).script = s.script := rfl
@[simp] theorem State.deliver_replies (d : List Byte) : (s.deliver d).replies = s.replies := rfl

/-! ### fail -/

@[simp] theorem State.fail_err (e : ErrCode) : (s.fail e).err = e := rfl
@[simp] theorem State.fail_inlen (e : ErrCode) : (s.fail e).inlen = s.inlen := rfl
@[simp] theorem State.fail_outlen (e : ErrCode) : (s.fail e).outlen = 0 := rfl
@[simp] theorem State.fail_klen (e : ErrCode) : (s.fail e).klen = s.klen := rfl
@[simp] theorem State.fail_idx (e : ErrCode) : (s.fail e).idx = s.idx := rfl
@[simp] theorem State.fail_sbyte (e : ErrCode) : (s.fail e).sbyte = s.sbyte := rfl
@[simp] theorem State.fail_v0 (e : ErrCode) : (s.fail e).v0 = s.v0 := rfl
@[simp] theorem State.fail_v1 (e : ErrCode) : (s.fail e).v1 = s.v1 := rfl
@[simp] theorem State.fail_key (e : ErrCode) : (s.fail e).key = s.key := rfl
@[simp] theorem State.fail_inbuf (e : ErrCode) : (s.fail e).inbuf = s.inbuf := rfl
@[simp] theorem State.fail_outbuf (e : ErrCode) : (s.fail e).outbuf = Memory.zeros := rfl
@[simp] theorem State.fail_params (e : ErrCode) : (s.fail e).params = s.params := rfl
@[simp] theorem State.fail_draws (e : ErrCode) : (s.fail e).draws = s.draws := rfl
@[simp] theorem State.fail_script (e : ErrCode) : (s.fail e).script = s.script := rfl
@[simp] theorem State.fail_replies (e : ErrCode) : (s.fail e).replies = s.replies := rfl

/-! ### illegalCommand -/

@[simp] theorem State.illegalCommand_err : s.illegalCommand.err = .illegal := rfl
@[simp] theorem State.illegalCommand_inlen : s.illegalCommand.inlen = s.inlen := rfl
@[simp] theorem State.illegalCommand_outlen : s.illegalCommand.outlen = s.outlen := rfl
@[simp] theorem State.illegalCommand_klen : s.illegalCommand.klen = s.klen := rfl
@[simp] theorem State.illegalCommand_idx : s.illegalCommand.idx = s.idx := rfl
@[simp] theorem State.illegalCommand_sbyte : s.illegalCommand.sbyte = s.sbyte := rfl
@[simp] theorem State.illegalCommand_v0 : s.illegalCommand.v0 = s.v0 := rfl
@[simp] theorem State.illegalCommand_v1 : s.illegalCommand.v1 = s.v1 := rfl
@[simp] theorem State.illegalCommand_key : s.illegalCommand.key = s.key := rfl
@[simp] theorem State.illegalCommand_inbuf : s.illegalCommand.inbuf = s.inbuf := rfl
@[simp] theorem State.illegalCommand_outbuf : s.illegalCommand.outbuf = s.outbuf := rfl
@[simp] theorem State.illegalCommand_params : s.illegalCommand.params = s.params := rfl
@[simp] theorem State.illegalCommand_draws : s.illegalCommand.draws = s.draws := rfl
@[simp] theorem State.illegalCommand_script : s.illegalCommand.script = s.script := rfl
@[simp] theorem State.illegalCommand_replies : s.illegalCommand.replies = s.replies := rfl

/-! ### zeroized -/

@[simp] theorem State.zeroized_err : s.zeroized.err = .ok := rfl
@[simp] theorem State.zeroized_inlen : s.zeroized.inlen = 0 := rfl
@[simp] theorem State.zeroized_outlen : s.zeroized.outlen = 0 := rfl
@[simp] theorem State.zeroized_klen : s.zeroized.klen = 0 := rfl
@[simp] theorem State.zeroized_idx : s.zeroized.idx = 0 := rfl
@[simp] theorem State.zeroized_sbyte : s.zeroized.sbyte = 0 := rfl
@[simp] theorem State.zeroized_v0 : s.zeroized.v0 = 0 := rfl
@[simp] theorem State.zeroized_v1 : s.zeroized.v1 = 0 := rfl
@[simp] theorem State.zeroized_key : s.zeroized.key = ⟨0, 0, 0, 0⟩ := rfl
@[simp] theorem State.zeroized_inbuf : s.zeroized.inbuf = Memory.zeros := rfl
@[simp] theorem State.zeroized_outbuf : s.zeroized.outbuf = Memory.zeros := rfl
@[simp] theorem State.zeroized_params : s.zeroized.params = s.params := rfl
@[simp] theorem State.zeroized_draws : s.zeroized.draws = s.draws := rfl
@[simp] theorem State.zeroized_script : s.zeroized.script = s.script := rfl
@[simp] theorem State.zeroized_replies : s.zeroized.replies = s.replies := rfl

/-! ### afterReset -/

@[simp] theorem State.afterReset_err : s.afterReset.err = .ok := rfl
@[simp] theorem State.afterReset_inlen : s.afterReset.inlen = 0 := rfl
@[simp] theorem State.afterReset_outlen : s.afterReset.outlen = 0 := rfl
@[simp] theorem State.afterReset_klen : s.afterReset.klen = 0 := rfl
@[simp] theorem State.afterReset_idx : s.afterReset.idx = 0 := rfl
@[simp] theorem State.afterReset_sbyte : s.afterReset.sbyte = 0 := rfl
@[simp] theorem State.afterReset_v0 : s.afterReset.v0 = 0 := rfl
@[simp] theorem State.afterReset_v1 : s.afterReset.v1 = 0 := rfl
@[simp] theorem State.afterReset_key : s.afterReset.key = ⟨0, 0, 0, 0⟩ := rfl
@[simp] theorem State.afterReset_inbuf : s.afterReset.inbuf = ⟨.unspecified s.draws, []⟩ := rfl
@[simp] theorem State.afterReset_outbuf : s.afterReset.outbuf = ⟨.unspecified (s.draws + 1), []⟩ := rfl
@[simp] theorem State.afterReset_params : s.afterReset.params = s.params := rfl
@[simp] theorem State.afterReset_draws : s.afterReset.draws = s.draws + 2 := rfl
@[simp] theorem State.afterReset_script : s.afterReset.script = s.script := rfl
@[simp] theorem State.afterReset_replies : s.afterReset.replies = s.replies := rfl

/-! ### answer -/

@[simp] theorem State.answer_err (r : Reply) : (s.answer r).err = s.err := rfl
@[simp] theorem State.answer_inlen (r : Reply) : (s.answer r).inlen = s.inlen := rfl
@[simp] theorem State.answer_outlen (r : Reply) : (s.answer r).outlen = s.outlen := rfl
@[simp] theorem State.answer_klen (r : Reply) : (s.answer r).klen = s.klen := rfl
@[simp] theorem State.answer_idx (r : Reply) : (s.answer r).idx = s.idx := rfl
@[simp] theorem State.answer_sbyte (r : Reply) : (s.answer r).sbyte = s.sbyte := rfl
@[simp] theorem State.answer_v0 (r : Reply) : (s.answer r).v0 = s.v0 := rfl
@[simp] theorem State.answer_v1 (r : Reply) : (s.answer r).v1 = s.v1 := rfl
@[simp] theorem State.answer_key (r : Reply) : (s.answer r).key = s.key := rfl
@[simp] theorem State.answer_inbuf (r : Reply) : (s.answer r).inbuf = s.inbuf := rfl
@[simp] theorem State.answer_outbuf (r : Reply) : (s.answer r).outbuf = s.outbuf := rfl
@[simp] theorem State.answer_params (r : Reply) : (s.answer r).params = s.params := rfl
@[simp] theorem State.answer_draws (r : Reply) : (s.answer r).draws = s.draws := rfl
@[simp] theorem State.answer_script (r : Reply) : (s.answer r).script = s.script := rfl
@[simp] theorem State.answer_replies (r : Reply) : (s.answer r).replies = r :: s.replies := rfl

/-! ### pending -/

@[simp] theorem State.pending_err (rest : List HostEvent) : (s.pending rest).err = s.err := rfl
@[simp] theorem State.pending_inlen (rest : List HostEvent) : (s.pending rest).inlen = s.inlen := rfl
@[simp] theorem State.pending_outlen (rest : List HostEvent) : (s.pending rest).outlen = s.outlen := rfl
@[simp] theorem State.pending_klen (rest : List HostEvent) : (s.pending rest).klen = s.klen := rfl
@[simp] theorem State.pending_idx (rest : List HostEvent) : (s.pending rest).idx = s.idx := rfl
@[simp] theorem State.pending_sbyte (rest : List HostEvent) : (s.pending rest).sbyte = s.sbyte := rfl
@[simp] theorem State.pending_v0 (rest : List HostEvent) : (s.pending rest).v0 = s.v0 := rfl
@[simp] theorem State.pending_v1 (rest : List HostEvent) : (s.pending rest).v1 = s.v1 := rfl
@[simp] theorem State.pending_key (rest : List HostEvent) : (s.pending rest).key = s.key := rfl
@[simp] theorem State.pending_inbuf (rest : List HostEvent) : (s.pending rest).inbuf = s.inbuf := rfl
@[simp] theorem State.pending_outbuf (rest : List HostEvent) : (s.pending rest).outbuf = s.outbuf := rfl
@[simp] theorem State.pending_params (rest : List HostEvent) : (s.pending rest).params = s.params := rfl
@[simp] theorem State.pending_draws (rest : List HostEvent) : (s.pending rest).draws = s.draws := rfl
@[simp] theorem State.pending_script (rest : List HostEvent) : (s.pending rest).script = rest := rfl
@[simp] theorem State.pending_replies (rest : List HostEvent) : (s.pending rest).replies = s.replies := rfl

/-! ### launchNext -/

@[simp] theorem State.launchNext_err (w : Word) : (s.launchNext w).err = s.err := rfl
@[simp] theorem State.launchNext_inlen (w : Word) : (s.launchNext w).inlen = s.inlen := rfl
@[simp] theorem State.launchNext_outlen (w : Word) : (s.launchNext w).outlen = s.outlen := rfl
@[simp] theorem State.launchNext_klen (w : Word) : (s.launchNext w).klen = s.klen := rfl
@[simp] theorem State.launchNext_idx (w : Word) : (s.launchNext w).idx = s.idx := rfl
@[simp] theorem State.launchNext_sbyte (w : Word) : (s.launchNext w).sbyte = s.sbyte := rfl
@[simp] theorem State.launchNext_v0 (w : Word) : (s.launchNext w).v0 = s.v0 := rfl
@[simp] theorem State.launchNext_v1 (w : Word) : (s.launchNext w).v1 = s.v1 := rfl
@[simp] theorem State.launchNext_key (w : Word) : (s.launchNext w).key = s.key := rfl
@[simp] theorem State.launchNext_inbuf (w : Word) : (s.launchNext w).inbuf = s.inbuf := rfl
@[simp] theorem State.launchNext_outbuf (w : Word) : (s.launchNext w).outbuf = s.outbuf := rfl
@[simp] theorem State.launchNext_params (w : Word) : (s.launchNext w).params = s.params := rfl
@[simp] theorem State.launchNext_draws (w : Word) : (s.launchNext w).draws = s.draws := rfl
@[simp] theorem State.launchNext_script (w : Word) : (s.launchNext w).script = .write 0 4 w.toNat :: s.script := rfl
@[simp] theorem State.launchNext_replies (w : Word) : (s.launchNext w).replies = s.replies := rfl

/-! ### writeReg, for the fields that no register write reaches -/

@[simp] theorem State.writeReg_err (r : Reg) (v : Word) : (s.writeReg r v).err = s.err := by cases r <;> rfl
@[simp] theorem State.writeReg_outlen (r : Reg) (v : Word) : (s.writeReg r v).outlen = s.outlen := by cases r <;> rfl
@[simp] theorem State.writeReg_inbuf (r : Reg) (v : Word) : (s.writeReg r v).inbuf = s.inbuf := by cases r <;> rfl
@[simp] theorem State.writeReg_outbuf (r : Reg) (v : Word) : (s.writeReg r v).outbuf = s.outbuf := by cases r <;> rfl
@[simp] theorem State.writeReg_params (r : Reg) (v : Word) : (s.writeReg r v).params = s.params := by cases r <;> rfl
@[simp] theorem State.writeReg_draws (r : Reg) (v : Word) : (s.writeReg r v).draws = s.draws := by cases r <;> rfl
@[simp] theorem State.writeReg_script (r : Reg) (v : Word) : (s.writeReg r v).script = s.script := by cases r <;> rfl
@[simp] theorem State.writeReg_replies (r : Reg) (v : Word) : (s.writeReg r v).replies = s.replies := by cases r <;> rfl

/-! ### hostStore, for the fields that no stored value reaches -/

@[simp] theorem State.hostStore_err (p : Place) (n v : Nat) : (s.hostStore p n v).err = s.err := by
  cases p <;> simp [State.hostStore]
@[simp] theorem State.hostStore_outlen (p : Place) (n v : Nat) : (s.hostStore p n v).outlen = s.outlen := by
  cases p <;> simp [State.hostStore]
@[simp] theorem State.hostStore_outbuf (p : Place) (n v : Nat) : (s.hostStore p n v).outbuf = s.outbuf := by
  cases p <;> simp [State.hostStore]
@[simp] theorem State.hostStore_params (p : Place) (n v : Nat) : (s.hostStore p n v).params = s.params := by
  cases p <;> simp [State.hostStore]
@[simp] theorem State.hostStore_draws (p : Place) (n v : Nat) : (s.hostStore p n v).draws = s.draws := by
  cases p <;> simp [State.hostStore]
@[simp] theorem State.hostStore_script (p : Place) (n v : Nat) : (s.hostStore p n v).script = s.script := by
  cases p <;> simp [State.hostStore]
@[simp] theorem State.hostStore_replies (p : Place) (n v : Nat) : (s.hostStore p n v).replies = s.replies := by
  cases p <;> simp [State.hostStore]

end Sys2Proof.Machine
end

