-- ==== Sys2Proof/Laws/Exec.lean ====
section
/-! SUPPORT. What the shared operations of a command can do, said once. -/

namespace Sys2Proof.Machine

theorem inCap_pos (p : Params) : 4 ≤ inCap p := by unfold inCap; omega

theorem inCap_mod_four (p : Params) : inCap p % 4 = 0 := by unfold inCap; omega

theorem inCap_le (p : Params) : inCap p ≤ 2 ^ 20 := by unfold inCap; have := p.capIndex.isLt; omega

theorem outCap_le (p : Params) : outCap p ≤ 1398104 := by unfold outCap; have := inCap_le p; omega

theorem inCap_le_outCap (p : Params) : inCap p ≤ outCap p := by unfold outCap; omega

theorem length_input (s : State) : s.input.length = s.inlen.toNat := by simp [State.input]

/-- The three ends of a buffer command. -/
theorem bufferCommand_cases (s : State) (f : List Byte → Except ErrCode (List Byte)) :
    (inCap s.params < s.inlen.toNat ∧ bufferCommand s f = s.fail .len) ∨
    (s.inlen.toNat ≤ inCap s.params ∧ ∃ d, f s.input = .ok d ∧ bufferCommand s f = s.deliver d) ∨
    (s.inlen.toNat ≤ inCap s.params ∧ ∃ e, f s.input = .error e ∧ bufferCommand s f = s.fail e) := by
  unfold bufferCommand
  split
  · exact .inl ⟨‹_›, rfl⟩
  · have h : s.inlen.toNat ≤ inCap s.params := by omega
    cases hf : f s.input with
    | ok d => exact .inr (.inl ⟨h, d, rfl, rfl⟩)
    | error e => exact .inr (.inr ⟨h, e, rfl, rfl⟩)

/-- The ends of a codec command: the two checks before it is a buffer command. -/
theorem codecCommand_cases (nullin : Bool) (s : State) (f : List Byte → Except ErrCode (List Byte)) :
    (nullin = true ∧ codecCommand nullin s f = s.fail .absent) ∨
    (nullin = false ∧ s.klen ≠ keyBytes ∧ codecCommand nullin s f = s.fail .keylen) ∨
    (nullin = false ∧ s.klen = keyBytes ∧ codecCommand nullin s f = bufferCommand s f) := by
  unfold codecCommand
  cases nullin <;> simp
  by_cases h : s.klen = keyBytes <;> simp [h]

/-- A buffer command whose input fits runs its stage on it. -/
theorem bufferCommand_fits {s : State} (f : List Byte → Except ErrCode (List Byte)) (h : s.inlen.toNat ≤ inCap s.params) :
    bufferCommand s f = match f s.input with
      | .ok d => s.deliver d
      | .error e => s.fail e := by
  exact if_neg (Nat.not_lt.mpr h)

/-- A buffer command whose input does not fit fails with ERR_LEN. -/
theorem bufferCommand_too_long {s : State} (f : List Byte → Except ErrCode (List Byte)) (h : inCap s.params < s.inlen.toNat) :
    bufferCommand s f = s.fail .len := by
  simp [bufferCommand, h]

end Sys2Proof.Machine
end

