-- ==== Sys2Proof/Laws/Host.lean ====
section
/-! SUPPORT. What an access can reach, how a step unfolds, and what no command touches. -/

namespace Sys2Proof.Machine

/-! ### The address map -/

theorem regAt_regOffset (r : Reg) : regAt (regOffset r) = some r := by cases r <;> rfl

theorem regOffset_of_regAt {o : Nat} {r : Reg} (h : regAt o = some r) : o = regOffset r := by
  unfold regAt at h
  split at h <;> cases h <;> rfl

theorem regOffset_lt (r : Reg) : regOffset r < 0x100 := by cases r <;> decide

theorem regOffset_mod_four (r : Reg) : regOffset r % 4 = 0 := by cases r <;> rfl

/-- The three kinds of legal access. -/
theorem resolve_cases {p : Params} {a : Offset} {n : Nat} {pl : Place} (h : resolve p a n = some pl) :
    (∃ r, pl = .reg r ∧ n = 4 ∧ a.toNat = regOffset r) ∨
    ((n = 1 ∨ n = 4 ∧ a.toNat % 4 = 0) ∧
      ((∃ i, pl = .input i ∧ a.toNat = inBase + i ∧ i + n ≤ inCap p) ∨
       (∃ i, pl = .output i ∧ a.toNat = outBase + i ∧ i + n ≤ outCap p))) := by
  unfold resolve at h
  simp only at h
  split at h
  · split at h
    · obtain ⟨r, hr, rfl⟩ := Option.map_eq_some_iff.mp h
      exact .inl ⟨r, rfl, ‹_ ∧ _›.1, regOffset_of_regAt hr⟩
    · cases h
  · split at h
    · rename_i hw
      split at h
      · cases h; exact .inr ⟨hw, .inl ⟨_, rfl, by omega, by omega⟩⟩
      · split at h
        · cases h; exact .inr ⟨hw, .inr ⟨_, rfl, by omega, by omega⟩⟩
        · cases h
    · cases h

theorem resolve_reg (p : Params) {a : Offset} (r : Reg) (ha : a.toNat = regOffset r) : resolve p a 4 = some (.reg r) := by
  have := regOffset_lt r
  simp [resolve, ha, this, regOffset_mod_four, regAt_regOffset]

theorem resolve_input {p : Params} {a : Offset} {n i : Nat} (hn : n = 1 ∨ n = 4 ∧ i % 4 = 0) (ha : a.toNat = inBase + i)
    (hi : i + n ≤ inCap p) : resolve p a n = some (.input i) := by
  have hm : (inBase + i) % 4 = i % 4 := by unfold inBase; omega
  have h0 : ¬ inBase + i < 0x100 := by unfold inBase; omega
  have h1 : inBase ≤ inBase + i ∧ inBase + i + n ≤ inBase + inCap p := by omega
  unfold resolve
  simp only [ha, hm]
  rw [if_neg h0, if_pos hn, if_pos h1, Nat.add_sub_cancel_left]

theorem resolve_output {p : Params} {a : Offset} {n i : Nat} (hn : n = 1 ∨ n = 4 ∧ i % 4 = 0) (ha : a.toNat = outBase + i)
    (hi : i + n ≤ outCap p) : resolve p a n = some (.output i) := by
  have hc := inCap_le p
  have hm : (outBase + i) % 4 = i % 4 := by unfold outBase; omega
  have h0 : ¬ outBase + i < 0x100 := by unfold outBase; omega
  have h1 : ¬ (inBase ≤ outBase + i ∧ outBase + i + n ≤ inBase + inCap p) := by unfold inBase outBase; omega
  have h2 : outBase ≤ outBase + i ∧ outBase + i + n ≤ outBase + outCap p := by omega
  unfold resolve
  simp only [ha, hm]
  rw [if_neg h0, if_pos hn, if_neg h1, if_pos h2, Nat.add_sub_cancel_left]

/-! ### A step -/

theorem step_idle {s : State} (h : s.script = []) : step s = .next s := by simp [step, serveNext, h]

theorem step_event {s : State} {e : HostEvent} {rest : List HostEvent} (h : s.script = e :: rest) :
    step s = serve e (s.pending rest) := by simp [step, serveNext, h]

@[simp] theorem mapNext_next {α β : Type} (f : α → β) (a : α) : mapNext f (.next a) = .next (f a) := rfl

@[simp] theorem mapNext_fault {α β : Type} (f : α → β) (r : Fault) : mapNext f (.fault r) = .fault r := rfl

@[simp] theorem mapNext_refused {α β : Type} (f : α → β) (r : Refusal) : mapNext f (.refused r) = .refused r := rfl

/-- The step relation at a state's own parameters. -/
theorem stepUnder_params (s : State) : stepUnder s.params s.toUnitState = mapNext State.toUnitState (step s) := rfl

theorem serve_reset (s : State) : serve .reset s = .next s.afterReset := rfl

/-- Everything a read can do. -/
theorem serve_read_cases (s : State) (a : Offset) (n : Nat) :
    (resolve s.params a n = none ∧ serve (.read a n) s = .refused .buserr) ∨
    (∃ p r, resolve s.params a n = some p ∧ serve (.read a n) s = .next (s.answer r)) := by
  cases h : resolve s.params a n with
  | none => exact .inl ⟨rfl, by simp only [serve, hostRead, h]⟩
  | some p => cases p <;> exact .inr ⟨_, _, rfl, by simp only [serve, hostRead, h]; rfl⟩

/-- Everything a write can do. -/
theorem serve_write_cases (s : State) (a : Offset) (n v : Nat) :
    (resolve s.params a n = none ∧ serve (.write a n v) s = .refused .buserr) ∨
    (resolve s.params a n = some (.reg .cmd) ∧ serve (.write a n v) s = launch (BitVec.ofNat 32 v) (s.answer .done)) ∨
    (∃ p, resolve s.params a n = some p ∧ p ≠ .reg .cmd ∧ serve (.write a n v) s = .next ((s.hostStore p n v).answer .done)) := by
  cases h : resolve s.params a n with
  | none => exact .inl ⟨rfl, by simp only [serve, h]⟩
  | some p =>
    by_cases hc : p = .reg .cmd
    · subst hc; exact .inr (.inl ⟨rfl, by simp only [serve, h]⟩)
    · exact .inr (.inr ⟨p, rfl, hc, by simp only [serve, h]⟩)

/-- The two ends of a launched word. -/
theorem launch_cases (w : Word) (s : State) :
    (∃ i, decode w = .command i ∧ launch w s = exec i s) ∨
    (∃ why, decode w = .illegal why ∧ launch w s = .next s.illegalCommand) := by
  unfold launch
  cases h : decode w with
  | command i => exact .inl ⟨i, rfl, rfl⟩
  | illegal why => exact .inr ⟨why, rfl, rfl⟩

/-! ### The end of every command -/

/-- Everything a command can do to the state: nothing, a block or byte result, a delivered result, a failure, or clearing. -/
theorem exec_cases {i : Instr} {s t : State} (h : exec i s = .next t) :
    (i = .nop ∧ t = s) ∨
    ((i = .blkenc ∨ i = .blkdec) ∧ ∃ b, t = (s.setBlock b).setErr .ok) ∨
    ((i = .bytenc ∨ i = .bytdec) ∧ ∃ b, t = (s.setByte b).setErr .ok) ∨
    (i = .zeroize ∧ t = s.zeroized) ∨
    (∃ e, t = s.fail e ∧ e ≠ .ok ∧ e ≠ .illegal) ∨
    (∃ d, t = s.deliver d ∧ s.inlen.toNat ≤ inCap s.params) := by
  have buffer : ∀ f, (∀ d e, f d = .error e → e ≠ .ok ∧ e ≠ .illegal) →
      (∃ e, bufferCommand s f = s.fail e ∧ e ≠ .ok ∧ e ≠ .illegal) ∨
      (∃ d, bufferCommand s f = s.deliver d ∧ s.inlen.toNat ≤ inCap s.params) := by
    intro f hf
    rcases bufferCommand_cases s f with ⟨_, hb⟩ | ⟨hl, d, _, hb⟩ | ⟨_, e, he, hb⟩
    · exact .inl ⟨_, hb, by decide, by decide⟩
    · exact .inr ⟨d, hb, hl⟩
    · exact .inl ⟨e, hb, hf _ _ he⟩
  have codec : ∀ nullin f, (∀ d e, f d = .error e → e ≠ .ok ∧ e ≠ .illegal) →
      (∃ e, codecCommand nullin s f = s.fail e ∧ e ≠ .ok ∧ e ≠ .illegal) ∨
      (∃ d, codecCommand nullin s f = s.deliver d ∧ s.inlen.toNat ≤ inCap s.params) := by
    intro nullin f hf
    rcases codecCommand_cases nullin s f with ⟨_, hc⟩ | ⟨_, _, hc⟩ | ⟨_, _, hc⟩
    · exact .inl ⟨_, hc, by decide, by decide⟩
    · exact .inl ⟨_, hc, by decide, by decide⟩
    · rw [hc]; exact buffer f hf
  have decodeErr : ∀ d e, decodeStage s.params s.key d = .error e → e ≠ .ok ∧ e ≠ .illegal := by
    intro d e he
    unfold decodeStage at he
    split at he
    · cases he; decide
    · split at he
      · cases he
      · cases he; decide
  cases i <;> simp only [exec, execNop, execBlkenc, execBlkdec, execBytenc, execBytdec, execPldenc, execPlddec, execB64enc,
    execB64dec, execEncode, execDecode, execZeroize, Host.Outcome.next.injEq] at h <;> subst h
  case nop => exact .inl ⟨rfl, rfl⟩
  case blkenc => exact .inr (.inl ⟨.inl rfl, _, rfl⟩)
  case blkdec => exact .inr (.inl ⟨.inr rfl, _, rfl⟩)
  case bytenc => exact .inr (.inr (.inl ⟨.inl rfl, _, rfl⟩))
  case bytdec => exact .inr (.inr (.inl ⟨.inr rfl, _, rfl⟩))
  case zeroize => exact .inr (.inr (.inr (.inl ⟨rfl, rfl⟩)))
  case pldenc => exact .inr (.inr (.inr (.inr (buffer _ (fun d e he => by cases he)))))
  case plddec => exact .inr (.inr (.inr (.inr (buffer _ (fun d e he => by cases he)))))
  case b64enc => exact .inr (.inr (.inr (.inr (buffer _ (fun d e he => by cases he)))))
  case b64dec =>
    refine .inr (.inr (.inr (.inr (buffer _ (fun d e he => ?_)))))
    unfold b64DecStage at he
    split at he <;> cases he
    decide
  case encode => exact .inr (.inr (.inr (.inr (codec _ _ (fun d e he => by cases he)))))
  case decode => exact .inr (.inr (.inr (.inr (codec _ _ decodeErr))))

end Sys2Proof.Machine
end

