-- ==== Sys2Proof/Laws/PerInstr.lean ====
section
/-! SUPPORT. What is said of every command as syntax, one lemma per constructor. -/

/-- The encoded word of a command decodes to it, and the command is well formed (spec/30_encoding.md R92, R94). -/
def Sys2Proof.Laws.RoundTrip.Statement (i : Sys2Proof.Instr) : Prop :=
  i.wellFormed = true ∧ Sys2Proof.decode (Sys2Proof.encode i) = .command i

theorem Sys2Proof.Laws.RoundTrip.nop : Sys2Proof.Laws.RoundTrip.Statement .nop := ⟨rfl, rfl⟩
theorem Sys2Proof.Laws.RoundTrip.blkenc : Sys2Proof.Laws.RoundTrip.Statement .blkenc := ⟨rfl, rfl⟩
theorem Sys2Proof.Laws.RoundTrip.blkdec : Sys2Proof.Laws.RoundTrip.Statement .blkdec := ⟨rfl, rfl⟩
theorem Sys2Proof.Laws.RoundTrip.bytenc : Sys2Proof.Laws.RoundTrip.Statement .bytenc := ⟨rfl, rfl⟩
theorem Sys2Proof.Laws.RoundTrip.bytdec : Sys2Proof.Laws.RoundTrip.Statement .bytdec := ⟨rfl, rfl⟩
theorem Sys2Proof.Laws.RoundTrip.pldenc : Sys2Proof.Laws.RoundTrip.Statement .pldenc := ⟨rfl, rfl⟩
theorem Sys2Proof.Laws.RoundTrip.plddec : Sys2Proof.Laws.RoundTrip.Statement .plddec := ⟨rfl, rfl⟩
theorem Sys2Proof.Laws.RoundTrip.b64enc : Sys2Proof.Laws.RoundTrip.Statement .b64enc := ⟨rfl, rfl⟩
theorem Sys2Proof.Laws.RoundTrip.b64dec : Sys2Proof.Laws.RoundTrip.Statement .b64dec := ⟨rfl, rfl⟩
theorem Sys2Proof.Laws.RoundTrip.encode : ∀ nullin, Sys2Proof.Laws.RoundTrip.Statement (.encode nullin)
  | true => ⟨rfl, rfl⟩
  | false => ⟨rfl, rfl⟩
theorem Sys2Proof.Laws.RoundTrip.decode : ∀ nullin, Sys2Proof.Laws.RoundTrip.Statement (.decode nullin)
  | true => ⟨rfl, rfl⟩
  | false => ⟨rfl, rfl⟩
theorem Sys2Proof.Laws.RoundTrip.zeroize : Sys2Proof.Laws.RoundTrip.Statement .zeroize := ⟨rfl, rfl⟩
end

