-- ==== Sys2Proof/Tests/Slice0.lean ====
section
/-! SUPPORT. The model's own tests. Expected values come from spec/95_test_vectors.md (the id of the row is in the docstring) and
from the tables of the rules. The second half shows, for each statement that has hypotheses, data that meet them. -/

namespace Sys2Proof.Tests

-- One evaluation at a time: many at once need a thread's memory each.
set_option Elab.async false

open Sys2Proof.Machine Sys2Proof.Claims Sys2Proof.Safety

/-! ### Fixtures -/

/-- TABLE_EX, an example value and not the protocol's table. -/
def tableEx : Vector Byte 8 := #v[0x41, 0x62, 0x33, 0x78, 0x2B, 0x6D, 0x7E, 0x39]

/-- K_A. -/
def keyA : Key := ⟨0x03020100, 0x07060504, 0x0B0A0908, 0x0F0E0D0C⟩

/-- K_B. -/
def keyB : Key := ⟨0x00112233, 0x44556677, 0x8899AABB, 0xCCDDEEFF⟩

/-- The reset state of a unit with IN_CAP = 4096 and TABLE_EX. -/
def unitEx : State := { State.reset with params := ⟨1023, tableEx⟩ }

/-- The reset state of the smallest unit, IN_CAP = 4 and OUT_CAP = 8. -/
def smallest : State := { State.reset with params := ⟨0, tableEx⟩ }

/-- The unit under K_A with KLEN = 16 and the input `d`. -/
def loaded (d : List Byte) : State :=
  { unitEx with key := keyA, klen := 16, inlen := BitVec.ofNat 32 d.length, inbuf := Memory.ofBytes d }

/-- The smallest unit with KLEN and INLEN as given. -/
def sized (klen inlen : Word) : State := { smallest with klen := klen, inlen := inlen, inbuf := Memory.zeros }

/-- The state with one host event pending. -/
def facing (s : State) (e : HostEvent) : State := { s with script := [e] }

/-- What is seen of the next state. -/
def seen {α : Type} (f : State → α) : Host.Outcome State Fault Refusal → Option α
  | .next t => some (f t)
  | .fault _ | .refused _ => none

/-- ERR, OUTLEN and the first `n` bytes of OUTBUF. -/
def result (n : Nat) (s : State) : ErrCode × Word × List Byte := (s.err, s.outlen, s.outbuf.read n)

/-- Whether an outcome is the refusal of buserr. -/
def goesWrong : Host.Outcome State Fault Refusal → Bool
  | .refused .buserr => true
  | .refused (.notModelled _) | .next _ | .fault _ => false

/-! ### Well-formedness: what each check refuses -/

theorem test_wide_value_is_refused : (HostEvent.write 0x100000 1 0x100).wellFormed = false := by decide

theorem test_byte_write_line_outside_the_window_is_refused : (ScriptLine.wrb 0x100000 0x55).wellFormed = false := by decide

theorem test_misaligned_word_write_line_is_refused : (ScriptLine.wrw 2 0).wellFormed = false := by decide

theorem test_word_write_line_outside_the_window_is_refused : (ScriptLine.wrw 0x100000 0).wellFormed = false := by decide

theorem test_byte_read_line_outside_the_window_is_refused : (ScriptLine.rdb 0x200000).wellFormed = false := by decide

theorem test_misaligned_word_read_line_is_refused : (ScriptLine.rdw 5).wellFormed = false := by decide

theorem test_word_read_line_outside_the_window_is_refused : (ScriptLine.rdw 0x200000).wellFormed = false := by decide

/-! ### Decoding: words written out from R90 and R92, RSV then NULLIN then OPC -/

theorem test_decode_nop : decode 0b00000000000000000000000_0_00000000 = .command .nop := by decide

theorem test_decode_blkenc : decode 0b00000000000000000000000_0_00000001 = .command .blkenc := by decide

theorem test_decode_blkdec : decode 0b00000000000000000000000_0_00000010 = .command .blkdec := by decide

theorem test_decode_bytenc : decode 0b00000000000000000000000_0_00000011 = .command .bytenc := by decide

theorem test_decode_bytdec : decode 0b00000000000000000000000_0_00000100 = .command .bytdec := by decide

theorem test_decode_pldenc : decode 0b00000000000000000000000_0_00000101 = .command .pldenc := by decide

theorem test_decode_plddec : decode 0b00000000000000000000000_0_00000110 = .command .plddec := by decide

theorem test_decode_b64enc : decode 0b00000000000000000000000_0_00000111 = .command .b64enc := by decide

theorem test_decode_b64dec : decode 0b00000000000000000000000_0_00001000 = .command .b64dec := by decide

theorem test_decode_encode : decode 0b00000000000000000000000_0_00001001 = .command (.encode false) ∧
    decode 0b00000000000000000000000_1_00001001 = .command (.encode true) := by decide

theorem test_decode_decode : decode 0b00000000000000000000000_0_00001010 = .command (.decode false) ∧
    decode 0b00000000000000000000000_1_00001010 = .command (.decode true) := by decide

theorem test_decode_zeroize : decode 0b00000000000000000000000_0_00001011 = .command .zeroize := by decide

/-- The illegal words of spec/95 "Command decoding". -/
theorem test_illegal_words : decode 0x0000000C = .illegal .unknownOpcode ∧ decode 0x000000FF = .illegal .unknownOpcode ∧
    decode 0x00000100 = .illegal .nullinNotTaken ∧ decode 0x00000101 = .illegal .nullinNotTaken ∧
    decode 0x0000010B = .illegal .nullinNotTaken ∧ decode 0x00000209 = .illegal .reservedBits ∧
    decode 0x80000001 = .illegal .reservedBits ∧ decode 0xFFFFFFFF = .illegal .reservedBits := by decide

/-- The words of R92, of every command. -/
theorem test_encode_words : encode .nop = 0x000 ∧ encode .blkenc = 0x001 ∧ encode .blkdec = 0x002 ∧ encode .bytenc = 0x003 ∧
    encode .bytdec = 0x004 ∧ encode .pldenc = 0x005 ∧ encode .plddec = 0x006 ∧ encode .b64enc = 0x007 ∧
    encode .b64dec = 0x008 ∧ encode (.encode false) = 0x009 ∧ encode (.encode true) = 0x109 ∧
    encode (.decode false) = 0x00A ∧ encode (.decode true) = 0x10A ∧ encode .zeroize = 0x00B := by decide

/-- Every legal word, put where the unit takes its next command, runs as the first command after reset. -/
theorem test_placed_words_run_after_reset :
    ([0x00, 0x01, 0x02, 0x03, 0x04, 0x05, 0x06, 0x07, 0x08, 0x09, 0x0A, 0x0B, 0x109, 0x10A].map
      fun w => seen (fun t => t.err) (step (State.reset.withFetchWord 32 w))) =
    [some .ok, some .ok, some .ok, some .ok, some .ok, some .ok, some .ok, some .ok, some .ok, some .keylen, some .keylen,
      some .ok, some .absent, some .absent] := by decide +kernel

/-! ### One command at a time -/

/-- R200, the example: STATUS = 4 survives a NOP. -/
theorem test_nop_keeps_status : seen (·.readReg .status) (exec .nop { unitEx with err := .b64 }) = some 4 := by decide

/-- T2. -/
theorem test_blkenc_t2 : seen (fun t => (t.v0, t.v1))
    (exec .blkenc { unitEx with key := keyB, v0 := 0x01234567, v1 := 0x89ABCDEF }) = some (0x126C6B92, 0xC0653A3E) := by
  decide +kernel

/-- T5: the right shift is logical. -/
theorem test_blkenc_t5 : seen (fun t => (t.v0, t.v1))
    (exec .blkenc { unitEx with key := ⟨1, 2, 3, 4⟩, v0 := 0x80000000, v1 := 0x00000001 }) =
    some (0x3A1DF026, 0x1757B118) := by decide +kernel

/-- T2. -/
theorem test_blkdec_t2 : seen (fun t => (t.v0, t.v1))
    (exec .blkdec { unitEx with key := keyB, v0 := 0x01234567, v1 := 0x89ABCDEF }) = some (0xBF467633, 0x9D07A595) := by
  decide +kernel

/-- T4: KLEN is not read, ERR is cleared. -/
theorem test_blkdec_t4 : seen (fun t => (t.v0, t.v1, t.err))
    (exec .blkdec { unitEx with err := .utf8, key := ⟨0xFFFFFFFF, 0xFFFFFFFF, 0xFFFFFFFF, 0xFFFFFFFF⟩ }) =
    some (0xE34BF71A, 0xAD249764, .ok) := by decide +kernel

/-- T21 and T22: only IDX mod 8 matters, and IDX is kept. -/
theorem test_bytenc_t22 : seen (fun t => (t.sbyte, t.idx)) (exec .bytenc { unitEx with key := keyA, idx := 0x0B, sbyte := 0x22 }) =
    some (0x02, 0x0B) := by decide +kernel

/-- T24. -/
theorem test_bytenc_t24 : seen (·.sbyte) (exec .bytenc { unitEx with key := keyA, idx := 0xFFFFFFFF, sbyte := 0xE5 }) =
    some 0x45 := by decide +kernel

/-- T21. -/
theorem test_bytdec_t21 : seen (·.sbyte) (exec .bytdec { unitEx with key := keyA, idx := 3, sbyte := 0x22 }) = some 0x42 := by
  decide +kernel

/-- T25. -/
theorem test_bytdec_t25 : seen (·.sbyte) (exec .bytdec { unitEx with key := keyA, idx := 0x0F, sbyte := 0x1F }) = some 0xBF := by
  decide +kernel

/-- T51, and zeros above OUTLEN. -/
theorem test_pldenc_t51 : seen (result 9) (exec .pldenc (loaded [0x00, 0x01, 0x02, 0x03, 0x04, 0x05, 0x06, 0x07])) =
    some (.ok, 8, [0x6D, 0xA9, 0x01, 0x76, 0x0C, 0x53, 0x9D, 0xCE, 0x00]) := by decide +kernel

/-- T57: one chunk and four bytes of remainder. -/
theorem test_pldenc_t57 : seen (result 12)
    (exec .pldenc (loaded [0x68, 0x65, 0x6C, 0x6C, 0x6F, 0x2C, 0x20, 0x77, 0x6F, 0x72, 0x6C, 0x64])) =
    some (.ok, 12, [0x40, 0x45, 0x4E, 0x99, 0x78, 0x93, 0x2B, 0x08, 0xEF, 0xF2, 0xAC, 0x44]) := by decide +kernel

/-- T49: no UTF-8 check on the raw path. -/
theorem test_plddec_t49 : seen (result 8) (exec .plddec (loaded [0xF7, 0x8D, 0x1A, 0x2F, 0xAE, 0x08, 0x82, 0x14])) =
    some (.ok, 8, [0xFF, 0xFE, 0x00, 0x01, 0x02, 0x03, 0x04, 0x05]) := by decide +kernel

/-- T56, decrypted. -/
theorem test_plddec_t56 : seen (result 7) (exec .plddec (loaded [0xFB, 0xA2, 0xA1, 0x02, 0x5A, 0x51, 0x5D])) =
    some (.ok, 7, [0x7B, 0x22, 0x61, 0x22, 0x3A, 0x31, 0x7D]) := by decide +kernel

/-- T35. -/
theorem test_b64enc_t35 : seen (result 9) (exec .b64enc (loaded [0x66, 0x6F, 0x6F, 0x62, 0x61])) =
    some (.ok, 8, [0x5A, 0x6D, 0x39, 0x76, 0x59, 0x6D, 0x45, 0x3D, 0x00]) := by decide +kernel

/-- T38: the two characters that are not alphanumeric. -/
theorem test_b64enc_t38 : seen (result 4) (exec .b64enc (loaded [0xFB, 0xFF])) = some (.ok, 4, [0x2B, 0x2F, 0x38, 0x3D]) := by
  decide +kernel

/-- T34, decoded. -/
theorem test_b64dec_t34 : seen (result 5) (exec .b64dec (loaded [0x5A, 0x6D, 0x39, 0x76, 0x59, 0x67, 0x3D, 0x3D])) =
    some (.ok, 4, [0x66, 0x6F, 0x6F, 0x62, 0x00]) := by decide +kernel

/-- R154: `QR==` has trailing bits that are not zero. -/
theorem test_b64dec_trailing_bits : seen (result 2) (exec .b64dec (loaded [0x51, 0x52, 0x3D, 0x3D])) =
    some (.b64, 0, [0x00, 0x00]) := by decide +kernel

/-- T56: `+6KhAlpRXQ==`. -/
theorem test_encode_t56 : seen (result 12) (exec (.encode false) (loaded [0x7B, 0x22, 0x61, 0x22, 0x3A, 0x31, 0x7D])) =
    some (.ok, 12, [0x2B, 0x36, 0x4B, 0x68, 0x41, 0x6C, 0x70, 0x52, 0x58, 0x51, 0x3D, 0x3D]) := by decide +kernel

/-- T45: the key length is tested before the input length. -/
theorem test_encode_t45 : seen (·.err) (exec (.encode false) (sized 3 5)) = some .keylen := by decide +kernel

/-- T51, decoded. -/
theorem test_decode_t51 : seen (result 9)
    (exec (.decode false) (loaded [0x62, 0x61, 0x6B, 0x42, 0x64, 0x67, 0x78, 0x54, 0x6E, 0x63, 0x34, 0x3D])) =
    some (.ok, 8, [0x00, 0x01, 0x02, 0x03, 0x04, 0x05, 0x06, 0x07, 0x00]) := by decide +kernel

/-- T47: `940aL64IghQ=` decrypts to bytes that are not UTF-8, and none of them is left. -/
theorem test_decode_t47 : seen (result 2)
    (exec (.decode false) (loaded [0x39, 0x34, 0x30, 0x61, 0x4C, 0x36, 0x34, 0x49, 0x67, 0x68, 0x51, 0x3D])) =
    some (.utf8, 0, [0x00, 0x00]) := by decide +kernel

/-- R201, the example. -/
theorem test_zeroize_example : seen (fun t => (t.readReg .k0, t.readReg .klen, t.inbuf.get 0)) (exec .zeroize (loaded [0x41])) =
    some (0, 0, 0) := by decide

/-- The valid byte lists of spec/95 "UTF-8 validity". -/
theorem test_utf8_valid : (([[], [0x00], [0x7F], [0xC2, 0x80], [0xDF, 0xBF], [0xE0, 0xA0, 0x80], [0xED, 0x9F, 0xBF],
    [0xEF, 0xBB, 0xBF, 0x41], [0xEF, 0xBF, 0xBF], [0xE2, 0x82, 0xAC], [0xF0, 0x90, 0x80, 0x80],
    [0xF4, 0x8F, 0xBF, 0xBF]] : List (List Byte)).all utf8Valid) = true := by decide +kernel

/-- The invalid byte lists of spec/95 "UTF-8 validity". -/
theorem test_utf8_invalid : (([[0x80], [0xC0, 0x80], [0xC1, 0xBF], [0xC2], [0xE0, 0x9F, 0xBF], [0xED, 0xA0, 0x80], [0xE2, 0x82],
    [0xF0, 0x8F, 0xBF, 0xBF], [0xF4, 0x90, 0x80, 0x80], [0xF5, 0x80, 0x80, 0x80], [0x41, 0xFF],
    [0xFF]] : List (List Byte)).any utf8Valid) = false := by decide +kernel

/-! ### One host access at a time (spec/95 "Host access") -/

theorem test_status_ignores_a_write :
    seen (fun t => (t.readReg .status, t.replies)) (step (facing { unitEx with err := .len } (.write 0x04 4 0xFFFFFFFF))) =
    some (3, [.done]) := by decide

theorem test_sbyte_stores_eight_bits : seen (·.readReg .sbyte) (step (facing unitEx (.write 0x18 4 0x12345678))) = some 0x78 := by
  decide

theorem test_cap_reads_in_cap : seen (·.replies) (step (facing unitEx (.read 0x1C 4))) = some [.word 4096] := by decide

theorem test_bad_accesses_answer_buserr :
    (([(0x28, 4), (0x40, 4), (0x02, 4), (0x00, 1), (0x100002, 4), (0x101000, 1), (0x300000, 1), (0x100000, 2)] :
      List (Offset × Nat)).all fun x => goesWrong (step (facing unitEx (.read x.1 x.2)))) = true := by decide +kernel

theorem test_word_write_is_little_endian :
    seen (fun t => t.inbuf.read 4) (step (facing unitEx (.write 0x100000 4 0x44332211))) =
    some [0x11, 0x22, 0x33, 0x44] := by decide +kernel

/-- P3: the text `QUFB` read as a word. -/
theorem test_word_read_is_little_endian :
    seen (·.replies) (step (facing { unitEx with outbuf := Memory.ofBytes [0x51, 0x55, 0x46, 0x42] } (.read 0x200000 4))) =
    some [.word 0x42465551] := by decide +kernel

theorem test_illegal_word_reports_six :
    seen (·.readReg .status) (step (facing unitEx (.write 0x00 4 0x0000000C))) = some 6 := by decide

/-- R99: LDKEY and LDIN, and the accesses of P1 and P2. -/
theorem test_script_lines : (ldkey #v[0x00, 0x01, 0x02, 0x03, 0x04, 0x05, 0x06, 0x07, 0x08, 0x09, 0x0A, 0x0B, 0x0C, 0x0D, 0x0E,
      0x0F]).map lineAccess = [.write 0x30 4 0x03020100, .write 0x34 4 0x07060504, .write 0x38 4 0x0B0A0908,
      .write 0x3C 4 0x0F0E0D0C, .write 0x10 4 16] ∧
    (ldin [0x7B, 0x22]).map lineAccess = [.write 0x100000 1 0x7B, .write 0x100001 1 0x22, .write 0x08 4 2] ∧
    lineAccess (.command (.decode true)) = .write 0x00 4 0x10A ∧ lineAccess (.rdw 4) = .read 0x200004 4 := by decide

/-! ### Data that meet the hypotheses of the statements, at the ends of the ranges -/

theorem witness_ExactlyFourteenWordsAreLegal :
    (0x00000200 : Word).extractLsb' 9 23 ≠ 0 ∧
    ((0x0000000C : Word).extractLsb' 9 23 = 0 ∧ 0x0B < ((0x0000000C : Word).extractLsb' 0 8).toNat) ∧
    ((0x000000FF : Word).extractLsb' 9 23 = 0 ∧ 0x0B < ((0x000000FF : Word).extractLsb' 0 8).toNat) ∧
    ((0x00000108 : Word).extractLsb' 9 23 = 0 ∧ (0x00000108 : Word).getLsbD 8 = true ∧
      ((0x00000108 : Word).extractLsb' 0 8).toNat ∉ [0x09, 0x0A]) ∧
    ((0x0000010B : Word).extractLsb' 9 23 = 0 ∧ (0x0000010B : Word).getLsbD 8 = true ∧
      ((0x0000010B : Word).extractLsb' 0 8).toNat ∉ [0x09, 0x0A]) ∧
    ((0x0000010A : Word).extractLsb' 9 23 = 0 ∧ ((0x0000010A : Word).extractLsb' 0 8).toNat ≤ 0x0B ∧
      ((0x0000010A : Word).getLsbD 8 = true → ((0x0000010A : Word).extractLsb' 0 8).toNat ∈ [0x09, 0x0A])) := by decide

theorem witness_TableRowsSelectWhatDecodes :
    ⟨"DECODE", 0x0000000A, 0xFFFFFEFF⟩ ∈ opcodeTable ∧
    (⟨"DECODE", 0x0000000A, 0xFFFFFEFF⟩ : OpcodeRow).selects 0x0000010A = true := by decide

theorem witness_CmdWriteRunsTheDecodedCommand :
    (facing unitEx (.write 0 4 0x00)).script = [.write 0 4 0x00] ∧ decode (BitVec.ofNat 32 0x00) = .command .nop ∧
    (facing unitEx (.write 0 4 0x10A)).script = [.write 0 4 0x10A] ∧
    decode (BitVec.ofNat 32 0x10A) = .command (.decode true) := by decide

theorem witness_PlacedWordRunsNext :
    decodeTableWord 32 0x00 = some .nop ∧ decodeTableWord 32 0x10A = some (.decode true) := by decide

theorem witness_IllegalWordWritesErrSixOnly :
    (facing unitEx (.write 0 4 0x0C)).script = [.write 0 4 0x0C] ∧
    decode (BitVec.ofNat 32 0x0C) = .illegal .unknownOpcode ∧
    decode (BitVec.ofNat 32 0x100) = .illegal .nullinNotTaken ∧
    decode (BitVec.ofNat 32 0xFFFFFFFF) = .illegal .reservedBits := by decide

theorem witness_IdleUnitKeepsItsState : State.reset.script = [] := rfl

theorem witness_OnlyThreeIndexBitsMatter : 7 % 8 = 0xFFFFFFFF % 8 ∧ 0 % 8 = 8 % 8 := by decide

theorem witness_KeyWordsAreFourKeyBytes : 0 < 4 ∧ 3 < 4 := by decide

/-- The characters of the digits at which the rows of R150 meet. -/
theorem witness_Base64AlphabetAndItsInverse :
    ([0, 25, 26, 51, 52, 61, 62, 63] : List (BitVec 6)).map b64Char = [0x41, 0x5A, 0x61, 0x7A, 0x30, 0x39, 0x2B, 0x2F] ∧
    b64Val 0x2F = some 63 ∧ (0x5F : Byte) ∈ ([0x3D, 0x20, 0x0D, 0x0A, 0x2D, 0x5F] : List Byte) := by decide

/-- `/w==`: the byte 0xFF has its bits 7 to 0 in two digits, the second with four unused bits, and then come two pads. -/
theorem witness_Base64TextCarriesTheBitsInOrder :
    ([0xFF] : List Byte)[0]? = some 0xFF ∧ 0 < 8 ∧ 7 < 8 ∧
    (b64Enc [0xFF])[8 * ([0xFF] : List Byte).length / 6]? = some (b64Char 48) ∧
    8 * ([0xFF] : List Byte).length % 6 = 2 ∧ 2 ≤ 5 ∧ 5 < 6 ∧
    (8 * ([0xFF] : List Byte).length + 5) / 6 = 2 ∧ 3 < (b64Enc [0xFF]).length := by decide

theorem witness_Base64HalvesAreExactPartialInverses :
    b64Dec [0x51, 0x51, 0x3D, 0x3D] = some [0x41] ∧ b64Enc [0x41] = b64Enc [0x41] := by decide +kernel

/-- `QR==`, `QUF=`, `xx=x`, a space, an early `=`, and a good text with two pads. -/
theorem witness_Base64DecodingFailsExactlyOnBadTexts :
    b64Dec [0x51, 0x52, 0x3D, 0x3D] = none ∧ b64Dec [0x51, 0x55, 0x46, 0x3D] = none ∧ b64Dec [0x5A, 0x6D, 0x3D, 0x76] = none ∧
    b64Dec [0x5A, 0x6D, 0x20, 0x76] = none ∧ b64Dec [0x3D, 0x6D, 0x39, 0x76] = none ∧ b64Dec [0x5A, 0x67, 0x3D] = none ∧
    b64Dec [0x5A, 0x67, 0x3D, 0x3D] = some [0x66] := by decide +kernel

/-- INLEN = IN_CAP + 1, INLEN = IN_CAP and INLEN = 0 on the smallest unit, and what B64ENC reports. -/
theorem witness_B64encResult :
    inCap (sized 0 5).params < (sized 0 5).inlen.toNat ∧ seen (·.err) (exec .b64enc (sized 0 5)) = some .len ∧
    (sized 0 4).inlen.toNat ≤ inCap (sized 0 4).params ∧ seen (·.err) (exec .b64enc (sized 0 4)) = some .ok ∧
    seen (·.outlen) (exec .b64enc (sized 0 4)) = some 8 ∧ seen (·.outlen) (exec .b64enc (sized 0 0)) = some 0 := by
  decide +kernel

theorem witness_B64decResult :
    inCap (sized 0 5).params < (sized 0 5).inlen.toNat ∧ seen (·.err) (exec .b64dec (sized 0 5)) = some .len ∧
    (sized 0 4).inlen.toNat ≤ inCap (sized 0 4).params ∧ b64Dec (sized 0 4).input = none ∧
    b64Dec (loaded [0x51, 0x51, 0x3D, 0x3D]).input = some [0x41] ∧
    (sized 0 3).inlen.toNat % 4 ≠ 0 ∧ seen (·.err) (exec .b64dec (sized 0 3)) = some .b64 := by decide +kernel

/-- Fifteen bytes: the one chunk, and the remainder from 8 to 14. -/
theorem witness_PayloadIsChunksThenRemainder :
    0 < (List.replicate 15 (0 : Byte)).length / 8 ∧ 8 * ((List.replicate 15 (0 : Byte)).length / 8) ≤ 8 ∧
    14 < (List.replicate 15 (0 : Byte)).length := by decide

theorem witness_RemainderStartsOverAtTableZero :
    0 < (List.replicate 15 (0 : Byte)).length % 8 ∧ 6 < (List.replicate 15 (0 : Byte)).length % 8 ∧
    (∀ i, i < 7 → tableByte tableEx i = tableByte (tableEx.set 7 0) i) ∧ tableByte tableEx 7 ≠ tableByte (tableEx.set 7 0) 7 := by
  decide

/-- Two equal chunks; a changed byte of chunk 1 and a byte of chunk 0; two remainder bytes; a whole number of chunks. -/
theorem witness_ChunksAreIndependent :
    0 < (List.replicate 16 (7 : Byte)).length / 8 ∧ 1 < (List.replicate 16 (7 : Byte)).length / 8 ∧
    ((List.replicate 16 (7 : Byte)).drop (8 * 0)).take 8 = ((List.replicate 16 (7 : Byte)).drop (8 * 1)).take 8 ∧
    ¬(8 * 1 ≤ 7 ∧ 7 < 8 * 1 + 8) ∧ ¬(8 * 0 ≤ 8 ∧ 8 < 8 * 0 + 8) ∧
    8 * ((List.replicate 10 (7 : Byte)).length / 8) ≤ 8 ∧ 8 ≠ 9 ∧ (List.replicate 10 (7 : Byte))[9]? = some 7 ∧
    (pldEnc tableEx keyA (List.replicate 10 (7 : Byte)))[9]?.isSome = true ∧ (List.replicate 16 (7 : Byte)).length % 8 = 0 := by
  decide +kernel

theorem witness_PldencResult :
    inCap (sized 0 5).params < (sized 0 5).inlen.toNat ∧ seen (·.err) (exec .pldenc (sized 0 5)) = some .len ∧
    (sized 0 4).inlen.toNat ≤ inCap (sized 0 4).params ∧ seen (·.outlen) (exec .pldenc (sized 0 4)) = some 4 := by
  decide +kernel

/-- Any state has the states that the second half of PlddecResult speaks of. -/
theorem pldencCopiedBack (s : State) : ∃ t u : State, exec .pldenc s = .next t ∧ u.key = s.key ∧ u.params = s.params ∧
    u.inlen = s.inlen ∧ ∀ j, j < t.outlen.toNat → u.inbuf.get j = t.outbuf.get j :=
  ⟨_, { s with inbuf := (bufferCommand s (pldEncStage s.params s.key)).outbuf }, rfl, rfl, rfl, rfl, fun _ _ => rfl⟩

/-- The premises of the second half are met by T51's input, with OUTBUF copied to INBUF as it is. -/
theorem witness_PlddecResult :
    inCap (sized 0 5).params < (sized 0 5).inlen.toNat ∧ (sized 0 4).inlen.toNat ≤ inCap (sized 0 4).params ∧
    ∃ s t u : State, s.input = [0x00, 0x01, 0x02, 0x03, 0x04, 0x05, 0x06, 0x07] ∧ s.inlen.toNat ≤ inCap s.params ∧
      exec .pldenc s = .next t ∧ u.key = s.key ∧ u.params = s.params ∧ u.inlen = s.inlen ∧
      ∀ j, j < t.outlen.toNat → u.inbuf.get j = t.outbuf.get j := by
  obtain ⟨t, u, h⟩ := pldencCopiedBack (loaded [0x00, 0x01, 0x02, 0x03, 0x04, 0x05, 0x06, 0x07])
  exact ⟨by decide, by decide, _, t, u, by decide +kernel, by decide, h⟩

/-- U+10FFFF is valid, and so ends the range of the first bytes; a second byte at each end of the surrogates' range. -/
theorem witness_Utf8ValidIsConcatenationOfRows :
    utf8Valid [0xF4, 0x8F, 0xBF, 0xBF] = true ∧ 0xA0 ≤ (0xA0 : Byte).toNat ∧ 0xA0 ≤ (0xFF : Byte).toNat := by decide +kernel

theorem witness_EncodeResult :
    (sized 15 0).klen.toNat ≠ 16 ∧ (sized 17 0).klen.toNat ≠ 16 ∧
    ((sized 16 5).klen.toNat = 16 ∧ inCap (sized 16 5).params < (sized 16 5).inlen.toNat) ∧
    ((sized 16 4).klen.toNat = 16 ∧ (sized 16 4).inlen.toNat ≤ inCap (sized 16 4).params) := by decide

theorem witness_DecodeResult :
    (sized 15 0).klen.toNat ≠ 16 ∧ (sized 17 0).klen.toNat ≠ 16 ∧
    ((sized 16 5).klen.toNat = 16 ∧ inCap (sized 16 5).params < (sized 16 5).inlen.toNat) ∧
    ((sized 16 4).klen.toNat = 16 ∧ (sized 16 4).inlen.toNat ≤ inCap (sized 16 4).params ∧ b64Dec (sized 16 4).input = none) ∧
    (b64Dec (loaded [0x77, 0x51, 0x3D, 0x3D]).input = some [0xC1] ∧ utf8Valid (pldDec tableEx keyA [0xC1]) = true) ∧
    (b64Dec (loaded [0x51, 0x41, 0x3D, 0x3D]).input = some [0x40] ∧ utf8Valid (pldDec tableEx keyA [0x40]) = false) := by
  decide +kernel

theorem witness_CodecRoundTripIsExactForUtf8 : utf8Valid [0x41] = true ∧ utf8Valid [0xFF] = false ∧ 15 ≠ 16 ∧ 17 ≠ 16 := by
  decide +kernel

/-- Any state with KLEN = 16 has the states that DecodeGivesBackWhatEncodeTook speaks of. -/
theorem encodeCopiedBack (s : State) : ∃ t u : State, exec (.encode false) s = .next t ∧
    t = codecCommand false s (encodeStage s.params s.key) ∧ u.key = s.key ∧ u.params = s.params ∧ u.klen = s.klen ∧
    u.inlen = t.outlen ∧ ∀ j, j < t.outlen.toNat → u.inbuf.get j = t.outbuf.get j :=
  ⟨_, { s with
    inbuf := (codecCommand false s (encodeStage s.params s.key)).outbuf
    inlen := (codecCommand false s (encodeStage s.params s.key)).outlen }, rfl, rfl, rfl, rfl, rfl, rfl, fun _ _ => rfl⟩

/-- A plaintext that is UTF-8 and one that is not. -/
theorem witness_DecodeGivesBackWhatEncodeTook : ∀ d ∈ ([[0x41], [0xFF]] : List (List Byte)),
    ∃ s t u : State, s.input = d ∧ s.klen = 16 ∧ s.inlen.toNat ≤ inCap s.params ∧ exec (.encode false) s = .next t ∧
      u.key = s.key ∧ u.params = s.params ∧ u.klen = 16 ∧ u.inlen = t.outlen ∧ u.inlen.toNat ≤ inCap u.params ∧
      ∀ j, j < t.outlen.toNat → u.inbuf.get j = t.outbuf.get j := by
  intro d hd
  have ⟨same, fits, room⟩ : (loaded d).input = d ∧ (loaded d).inlen.toNat ≤ inCap (loaded d).params ∧
      (codecCommand false (loaded d) (encodeStage (loaded d).params (loaded d).key)).outlen.toNat ≤ 4096 := by
    revert d hd; decide +kernel
  obtain ⟨t, u, h, he, hk, hp, hl, hi, hc⟩ := encodeCopiedBack (loaded d)
  refine ⟨loaded d, t, u, same, rfl, fits, h, hk, hp, hl, hi, ?_, hc⟩
  rw [hp, hi, he]
  exact room

theorem witness_ZeroizeClearsEverything : Reg.cmd ≠ .cap ∧ Reg.k3 ≠ .cap := by decide

/-- A failure of each code. -/
theorem witness_FailureMakesThreeWritesOnly :
    seen (·.err) (exec (.encode true) (sized 16 0)) = some .absent ∧
    seen (·.err) (exec (.encode false) (sized 0 0)) = some .keylen ∧ seen (·.err) (exec .pldenc (sized 0 5)) = some .len ∧
    seen (·.err) (exec .b64dec (sized 0 4)) = some .b64 ∧
    seen (·.err) (exec (.decode false) (loaded [0x51, 0x41, 0x3D, 0x3D])) = some .utf8 := by decide +kernel

theorem witness_EachCommandReportsItsOwnCodes :
    seen (·.err) (exec .plddec (sized 0 4)) = some .ok ∧ ErrCode.utf8 ∈ codesOf (.decode false) ∧
    ErrCode.absent ∈ codesOf (.encode true) ∧ decode 0x0000000C = .illegal .unknownOpcode := by decide +kernel

theorem witness_OutcomeIgnoresEarlierOutcomes :
    Instr.b64enc ≠ .nop ∧ (∃ t, exec .b64enc (sized 0 4) = .next t) ∧ isBufferCommand .b64enc = true ∧
    (∃ t, exec .zeroize (sized 0 4) = .next t) ∧ (∃ t, exec .bytenc (sized 0 4) = .next t) ∧
    isBufferCommand .bytenc = false := ⟨by decide, ⟨_, rfl⟩, rfl, ⟨_, rfl⟩, ⟨_, rfl⟩, rfl⟩

/-- The byte at INLEN differs, those below agree. -/
theorem witness_InputAboveInlenIsNeverRead :
    (∀ j, j < (sized 0 3).inlen.toNat → (Memory.ofBytes [0, 0, 0, 9]).get j = (sized 0 3).inbuf.get j) ∧
    (Memory.ofBytes [0, 0, 0, 9]).get 3 ≠ (sized 0 3).inbuf.get 3 ∧ (∃ t, exec .b64enc (sized 0 3) = .next t) :=
  ⟨by decide, by decide, _, rfl⟩

theorem witness_CommandsWriteOnlyTheirRow :
    (∃ t, exec .blkenc (sized 0 4) = .next t) ∧ (∃ t, exec .bytdec (sized 0 4) = .next t) ∧
    (∃ t, exec (.decode false) (sized 0 4) = .next t) ∧ (∃ t, exec .nop (sized 0 4) = .next t) ∧
    Instr.bytdec ∉ [Instr.blkenc, .blkdec] ∧ Instr.blkenc ∉ [Instr.bytenc, .bytdec] ∧ isBufferCommand .blkdec = false :=
  ⟨⟨_, rfl⟩, ⟨_, rfl⟩, ⟨_, rfl⟩, ⟨_, rfl⟩, by decide, by decide, rfl⟩

/-- Both answers at the ends of the spaces of the smallest unit. -/
theorem witness_IllegalAccessesAreRefused :
    (facing smallest (.read 0x3C 4)).script = [.read 0x3C 4] ∧ (facing smallest (.write 0x3C 4 0)).script = [.write 0x3C 4 0] ∧
    LegalAccess smallest.params 0x3C 4 ∧ ¬ LegalAccess smallest.params 0x28 4 ∧ ¬ LegalAccess smallest.params 0x3C 1 ∧
    LegalAccess smallest.params 0x100003 1 ∧ ¬ LegalAccess smallest.params 0x100004 1 ∧
    LegalAccess smallest.params 0x200004 4 ∧ ¬ LegalAccess smallest.params 0x200008 4 ∧
    ¬ LegalAccess smallest.params 0x100002 4 := by
  unfold LegalAccess
  refine ⟨rfl, rfl, ?_⟩
  and_intros <;> decide

/-- The first and the last register, and the one whose bits are computed. -/
theorem witness_RegisterReadsReturnTheirValues :
    seen (·.replies) (step (facing unitEx (.read 0x00 4))) = some [.word 0] ∧
    seen (·.replies) (step (facing (loaded []) (.read 0x3C 4))) = some [.word 0x0F0E0D0C] ∧
    seen (·.replies) (step (facing { unitEx with err := .illegal } (.read 0x04 4))) = some [.word 6] := by decide

theorem witness_RegisterWritesStoreTheirValue :
    (facing unitEx (.write 0x08 4 0xFFFFFFFF)).script = [.write 0x08 4 0xFFFFFFFF] ∧
    (facing unitEx (.write 0x3C 4 0xFFFFFFFF)).script = [.write 0x3C 4 0xFFFFFFFF] := by decide

theorem witness_ReadOnlyPlacesIgnoreWrites :
    (facing smallest (.write 0x1C 4 1)).script = [.write 0x1C 4 1] ∧ 7 < outCap smallest.params ∧
    (facing smallest (.write (BitVec.ofNat 22 (0x200000 + 7)) 1 1)).script = [.write 0x200007 1 1] ∧
    4 % 4 = 0 ∧ 4 < outCap smallest.params ∧ (facing smallest (.read 0 4)).script = [.read 0 4] := by decide

theorem witness_BufferReadsAreLittleEndian :
    3 < inCap smallest.params ∧ (facing smallest (.read (BitVec.ofNat 22 (0x100000 + 3)) 1)).script = [.read 0x100003 1] ∧
    0 % 4 = 0 ∧ 0 < inCap smallest.params ∧ 7 < outCap smallest.params ∧ 4 % 4 = 0 ∧ 4 < outCap smallest.params ∧
    (facing smallest (.read (BitVec.ofNat 22 (0x200000 + 4)) 4)).script = [.read 0x200004 4] := by decide

theorem witness_InbufWritesAreLittleEndian :
    3 < inCap smallest.params ∧ (facing smallest (.write (BitVec.ofNat 22 (0x100000 + 3)) 1 9)).script = [.write 0x100003 1 9] ∧
    0 % 4 = 0 ∧ 0 < inCap smallest.params ∧
    (facing smallest (.write (BitVec.ofNat 22 (0x100000 + 0)) 4 9)).script = [.write 0x100000 4 9] := by decide

theorem witness_ResetEventGivesTheResetRegisters : (facing unitEx .reset).script = [.reset] := rfl

theorem witness_ResetStateRegisters : Reg.status ≠ .cap ∧ Reg.k3 ≠ .cap := by decide

theorem witness_CapacitiesMeetTheirConstraints :
    4 % 4 = 0 ∧ 4 ≤ 4 ∧ 4 ≤ 2 ^ 20 ∧ 2 ^ 20 % 4 = 0 ∧ 4 ≤ 2 ^ 20 ∧ 2 ^ 20 ≤ 2 ^ 20 := by decide

/-- A full input buffer of the smallest unit, and one that is base64 text. -/
theorem witness_OutbufHasRoomForEveryResult :
    ([0x51, 0x55, 0x46, 0x42] : List Byte).length ≤ inCap smallest.params ∧
    b64Dec [0x51, 0x55, 0x46, 0x42] = some [0x41, 0x41, 0x41] := by decide +kernel

/-- A unit that has been zeroized, with an ENCODE to come. -/
theorem witness_EveryStepKeepsTheInvariant :
    Inv (facing smallest.zeroized (.write 0 4 0x09)) ∧ ∃ t, step (facing smallest.zeroized (.write 0 4 0x09)) = .next t := by
  refine ⟨⟨rfl, rfl, Nat.zero_le _, fun _ _ _ => rfl, fun h => absurd rfl h, fun _ => rfl, fun d h => ?_⟩, _, rfl⟩
  rcases h with h | h <;> cases h

theorem witness_NoStepChangesTheParameters : ∃ t, step (facing unitEx .reset) = .next t := ⟨_, rfl⟩

/-- Each of the three ways the key can change. -/
theorem witness_OnlyKeyWritesZeroizeAndResetChangeTheKey :
    (∃ t, step (facing (loaded []) .reset) = .next t ∧ t.key ≠ keyA) ∧
    (∃ t, step (facing (loaded []) (.write 0 4 0x0B)) = .next t ∧ t.key ≠ keyA) ∧
    (∃ t, step (facing (loaded []) (.write 0x3C 4 0)) = .next t ∧ t.key ≠ keyA) :=
  ⟨⟨_, rfl, by decide⟩, ⟨_, rfl, by decide⟩, ⟨_, rfl, by decide⟩⟩

theorem witness_ScriptsRunToTheirEndOrGoWrong :
    scriptOk (facing smallest (.write 0 4 0x0B)) = true ∧ scriptOk (facing smallest (.read 0x100004 1)) = false := by decide

end Sys2Proof.Tests
end

section
/-! SUPPORT. The statements of spec/00_scope.md: packing (R17), the capacities (R10, R11), and what one step is (R12, R13). -/

namespace Sys2Proof.Proofs

open Sys2Proof.Machine Sys2Proof.Claims

/-! ### Packing -/

/-- Appending is positional: the high part counts in units of two to the width of the low part. -/
theorem toNat_append_eq_add {n m : Nat} (x : BitVec n) (y : BitVec m) : (x ++ y).toNat = y.toNat + 2 ^ m * x.toNat := by
  rw [BitVec.toNat_append, ← Nat.shiftLeft_add_eq_or_of_lt y.isLt, Nat.shiftLeft_eq, Nat.mul_comm, Nat.add_comm]

/-- LE32 is the little-endian sum of its bytes (R17). -/
theorem toNat_le32 (b0 b1 b2 b3 : Byte) :
    (le32 b0 b1 b2 b3).toNat = b0.toNat + 2 ^ 8 * b1.toNat + 2 ^ 16 * b2.toNat + 2 ^ 24 * b3.toNat := by
  simp only [le32, toNat_append_eq_add]
  omega

/-- Settles O19: LE32 is positional, and the packing laws say that it and BYTES32 undo each other. -/
theorem packingIsLittleEndian : Obligations.PackingIsLittleEndian :=
  ⟨fun b0 b1 b2 b3 => ⟨toNat_le32 b0 b1 b2 b3, bytes32_le32 b0 b1 b2 b3⟩,
   fun w => ⟨byteOf w 0, byteOf w 1, byteOf w 2, byteOf w 3, rfl, le32_byteOf w, rfl, rfl, rfl, rfl⟩⟩

/-! ### The capacities -/

theorem outCap_mod_four (p : Params) : outCap p % 4 = 0 := Nat.mul_mod_right 4 _

/-- Every capacity that R10 allows is that of some unit. -/
theorem exists_inCap_eq {c : Nat} (hmod : c % 4 = 0) (hpos : 4 ≤ c) (hle : c ≤ 2 ^ 20) : ∃ p, inCap p = c := by
  have hindex : c / 4 - 1 < 262144 := by omega
  refine ⟨⟨⟨c / 4 - 1, hindex⟩, default⟩, ?_⟩
  show 4 * (c / 4 - 1 + 1) = c
  omega

/-- Settles O54: the bounds of the capacity laws, and a unit for each allowed capacity, 4096 among them. -/
theorem capacitiesMeetTheirConstraints : Obligations.CapacitiesMeetTheirConstraints := by
  refine ⟨fun p => ⟨inCap_mod_four p, inCap_pos p, inCap_le p, rfl, outCap_mod_four p, outCap_le p⟩,
    fun c => exists_inCap_eq, ?_⟩
  obtain ⟨p, hp⟩ : ∃ p, inCap p = 4096 := exists_inCap_eq (by decide) (by decide) (by decide)
  exact ⟨p, hp, by rw [outCap, hp]⟩

/-! ### Lengths of results -/

/-- R152: four characters for each group of at most three bytes. -/
theorem length_b64Enc (d : List Byte) : (b64Enc d).length = 4 * ((d.length + 2) / 3) := by
  induction d using b64Enc.induct with
  | case1 d0 d1 d2 rest ih => simp only [b64Enc, List.length_cons, ih]; omega
  | case2 d0 d1 => simp [b64Enc]
  | case3 d0 => simp [b64Enc]
  | case4 => simp [b64Enc]

/-- A group of base64 text gives at most three bytes (R153). -/
theorem length_b64Group_le {last : Bool} {c0 c1 c2 c3 : Byte} {d : List Byte}
    (h : b64Group last c0 c1 c2 c3 = some d) : d.length ≤ 3 := by
  unfold b64Group at h
  split at h
  case h_1 => cases h; exact Nat.le_refl 3
  case h_2 | h_3 =>
    obtain ⟨-, hd⟩ := Option.ite_none_right_eq_some.mp h
    cases hd
    simp
  case h_4 => cases h

/-- A text of one group and more decodes to the bytes of the group and those of the rest (R153). -/
theorem b64Groups_cons_eq_some {c0 c1 c2 c3 : Byte} {rest d : List Byte} :
    b64Groups (c0 :: c1 :: c2 :: c3 :: rest) = some d ↔
      ∃ d1 d2, b64Group rest.isEmpty c0 c1 c2 c3 = some d1 ∧ b64Groups rest = some d2 ∧ d1 ++ d2 = d := by
  rw [b64Groups]
  cases b64Group rest.isEmpty c0 c1 c2 c3 <;> cases b64Groups rest <;> simp

theorem length_b64Groups_le {t d : List Byte} (h : b64Groups t = some d) : 4 * d.length ≤ 3 * t.length := by
  induction t using b64Groups.induct generalizing d with
  | case1 => cases h; rfl
  | case2 c0 c1 c2 c3 rest _ _ _ _ ih | case3 c0 c1 c2 c3 rest _ ih =>
    obtain ⟨d1, d2, hgroup, hrest, rfl⟩ := b64Groups_cons_eq_some.mp h
    have hd1 := length_b64Group_le hgroup
    have hd2 := ih hrest
    simp only [List.length_append, List.length_cons]
    omega
  | case4 t => simp [b64Groups] at h

theorem b64Dec_eq_some {t d : List Byte} : b64Dec t = some d ↔ t.length % 4 = 0 ∧ b64Groups t = some d := by
  simp [b64Dec]

/-- Decoded text is at most three quarters as long. -/
theorem length_b64Dec_le {t d : List Byte} (h : b64Dec t = some d) : d.length ≤ 3 * t.length / 4 := by
  obtain ⟨-, hgroups⟩ := b64Dec_eq_some.mp h
  have := length_b64Groups_le hgroups
  omega

/-- Every whole chunk of eight bytes gives eight, and the bytes after the last one nothing. -/
theorem length_mapChunks {f : Byte → Byte → Byte → Byte → Byte → Byte → Byte → Byte → List Byte}
    (hf : ∀ b0 b1 b2 b3 b4 b5 b6 b7, (f b0 b1 b2 b3 b4 b5 b6 b7).length = 8) :
    ∀ l : List Byte, (mapChunks f l).length = 8 * (l.length / 8)
  | b0 :: b1 :: b2 :: b3 :: b4 :: b5 :: b6 :: b7 :: rest => by
    simp only [mapChunks, List.length_append, hf, length_mapChunks hf rest, List.length_cons]
    omega
  | [] | [_] | [_, _] | [_, _, _] | [_, _, _, _] | [_, _, _, _, _] | [_, _, _, _, _, _] | [_, _, _, _, _, _, _] => by
    simp [mapChunks]

/-- The chunks and the remainder that SPLIT makes (R170) come out as long as they went in. -/
theorem length_chunks_append_remainder {f : Byte → Byte → Byte → Byte → Byte → Byte → Byte → Byte → List Byte}
    (hf : ∀ b0 b1 b2 b3 b4 b5 b6 b7, (f b0 b1 b2 b3 b4 b5 b6 b7).length = 8) (g : Byte → Nat → Byte) (l : List Byte) :
    (mapChunks f (l.take (split l.length).1) ++ mapRemainder g (split l.length).1 (l.drop (split l.length).1)).length =
      l.length := by
  simp only [List.length_append, length_mapChunks hf, length_mapRemainder, List.length_take, List.length_drop, split,
    blockBytes]
  omega

/-- PLD_ENC keeps the length (R174). -/
@[simp] theorem length_pldEnc (table : Vector Byte 8) (k : Key) (d : List Byte) : (pldEnc table k d).length = d.length :=
  length_chunks_append_remainder (fun _ _ _ _ _ _ _ _ => length_bytesOfBlock _) (byteEnc table k) d

/-- PLD_DEC keeps the length (R174). -/
@[simp] theorem length_pldDec (table : Vector Byte 8) (k : Key) (d : List Byte) : (pldDec table k d).length = d.length :=
  length_chunks_append_remainder (fun _ _ _ _ _ _ _ _ => length_bytesOfBlock _) (byteDec table k) d

/-- An input that fits INBUF has a base64 text that fits OUTBUF (R11). -/
theorem textLength_le_outCap {p : Params} {n : Nat} (h : n ≤ inCap p) : 4 * ((n + 2) / 3) ≤ outCap p := by
  unfold outCap
  omega

/-- Settles O55: the length of each result, and that OUT_CAP is the text length of a full INBUF. -/
theorem outbufHasRoomForEveryResult : Obligations.OutbufHasRoomForEveryResult := by
  intro p k d hfits
  refine ⟨(length_b64Enc d).le, ?_, textLength_le_outCap hfits, (length_pldEnc p.table k d).le,
    (length_pldDec p.table k d).le, inCap_le_outCap p, fun c hc => ?_⟩
  · rw [length_b64Enc, length_pldEnc]
  · rw [length_pldDec]
    exact ⟨length_b64Dec_le hc, length_b64Dec_le hc⟩

/-! ### One step -/

/-- The host's write to CMD launches the word written, with the access already answered (R29). -/
theorem step_cmd_write {s : State} {rest : List HostEvent} {v : Nat} (h : s.script = .write 0 4 v :: rest) :
    step s = launch (BitVec.ofNat 32 v) (answered s rest .done) := by
  have hcmd : resolve (s.pending rest).params 0 4 = some (.reg .cmd) := resolve_reg _ .cmd rfl
  rw [step_event h, serve, hcmd]
  rfl

theorem launch_of_decode_command {w : Word} {i : Instr} (h : decode w = .command i) (s : State) : launch w s = exec i s := by
  rw [launch, h]

/-- Settles O5: the write launches the word, and a word that decodes to a command runs as it. -/
theorem cmdWriteRunsTheDecodedCommand : Obligations.CmdWriteRunsTheDecodedCommand := by
  intro s rest v i hscript hdecode
  rw [step_cmd_write hscript, launch_of_decode_command hdecode]

/-- Settles O8, by the law of a step with nothing pending. -/
theorem idleUnitKeepsItsState : Obligations.IdleUnitKeepsItsState := fun _ => step_idle

end Sys2Proof.Proofs
end

section
/-! SUPPORT. The statements of spec/10_state.md: the key (R21), what a command reads and writes (R31, R37), reset (R38), the
parameters (R39), and the invariant of the state. -/

namespace Sys2Proof.Proofs

open Sys2Proof.Machine Sys2Proof.Claims Sys2Proof.Safety

/-! ### The command word -/

/-- A word is its three fields, from bit 31 down (R90). -/
theorem fields_append (w : Word) : rsvField w ++ BitVec.ofBool (nullinField w) ++ opcField w = w := by
  ext i hi
  simp only [rsvField, nullinField, opcField, BitVec.getElem_append, BitVec.getElem_extractLsb', BitVec.getElem_ofBool]
  split
  · rw [Nat.zero_add, BitVec.getLsbD_eq_getElem hi]
  · split
    · obtain rfl : i = 8 := by omega
      exact BitVec.getLsbD_eq_getElem hi
    · rw [show 9 + (i - 8 - 1) = i by omega, BitVec.getLsbD_eq_getElem hi]

/-- The row that an opcode selects is of that opcode, with the NULLIN bit given where it has one (R92, R93). -/
theorem fields_of_instrOfOpcode {opc : BitVec 8} {nullin : Bool} {i : Instr} (h : instrOfOpcode opc nullin = some i) :
    i.opcode = opc ∧ (i.takesNullin = true → i.nullinBit = BitVec.ofBool nullin) := by
  unfold instrOfOpcode at h
  split at h <;> cases h <;> rename_i hopc <;>
    exact ⟨BitVec.eq_of_toNat_eq hopc.symm, by simp [Instr.takesNullin, Instr.nullinBit]⟩

theorem nullinBit_of_not_takesNullin {i : Instr} (h : i.takesNullin = false) : i.nullinBit = BitVec.ofBool false := by
  cases i with
  | encode _ | decode _ => cases h
  | nop | blkenc | blkdec | bytenc | bytdec | pldenc | plddec | b64enc | b64dec | zeroize => rfl

/-- The only word that decodes to a command is the one that encodes it (R94). -/
theorem encode_of_decode {w : Word} {i : Instr} (h : decode w = .command i) : encode i = w := by
  unfold decode at h
  split at h
  · cases h
  · rename_i hrsv
    split at h
    · cases h
    · rename_i row hrow
      split at h
      · cases h
      · rename_i hnull
        cases h
        obtain ⟨hopc, htakes⟩ := fields_of_instrOfOpcode hrow
        have hbit : i.nullinBit = BitVec.ofBool (nullinField w) := by
          cases ht : i.takesNullin with
          | true => exact htakes ht
          | false =>
            have hfalse : nullinField w = false := by simpa [ht] using hnull
            rw [hfalse, nullinBit_of_not_takesNullin ht]
        rw [encode, hopc, hbit, ← not_not.mp hrsv, fields_append]

/-! ### What a step can do -/

/-- Everything a step can do: nothing when idle, else it serves the first event pending. -/
theorem step_cases {s t : State} (h : step s = .next t) :
    t = s ∨ ∃ e rest, s.script = e :: rest ∧ serve e (s.pending rest) = .next t := by
  cases hs : s.script with
  | nil => exact .inl (Host.Outcome.next.inj (h.symm.trans (step_idle hs)))
  | cons e rest => exact .inr ⟨e, rest, rfl, (step_event hs).symm.trans h⟩

/-- Everything an event can do: a reset, a read answered, a command or an illegal word launched, a value stored. -/
theorem serve_cases {e : HostEvent} {s t : State} (h : serve e s = .next t) :
    (e = .reset ∧ t = s.afterReset) ∨
    (∃ a n r, e = .read a n ∧ t = s.answer r) ∨
    (∃ a n v i, e = .write a n v ∧ resolve s.params a n = some (.reg .cmd) ∧ decode (BitVec.ofNat 32 v) = .command i ∧
      exec i (s.answer .done) = .next t) ∨
    (∃ a n v, e = .write a n v ∧ t = (s.answer .done).illegalCommand) ∨
    (∃ a n v p, e = .write a n v ∧ resolve s.params a n = some p ∧ t = (s.hostStore p n v).answer .done) := by
  cases e with
  | reset => exact .inl ⟨rfl, (Host.Outcome.next.inj h).symm⟩
  | read a n =>
    rcases serve_read_cases s a n with ⟨-, hserve⟩ | ⟨p, r, -, hserve⟩ <;> rw [hserve] at h <;> cases h
    exact .inr (.inl ⟨a, n, r, rfl, rfl⟩)
  | write a n v =>
    rcases serve_write_cases s a n v with ⟨-, hserve⟩ | ⟨hcmd, hserve⟩ | ⟨p, hp, -, hserve⟩ <;> rw [hserve] at h
    · cases h
    · rcases launch_cases (BitVec.ofNat 32 v) (s.answer .done) with ⟨i, hi, hlaunch⟩ | ⟨why, -, hlaunch⟩ <;>
        rw [hlaunch] at h
      · exact .inr (.inr (.inl ⟨a, n, v, i, rfl, hcmd, hi, h⟩))
      · cases h
        exact .inr (.inr (.inr (.inl ⟨a, n, v, rfl, rfl⟩)))
    · cases h
      exact .inr (.inr (.inr (.inr ⟨a, n, v, p, rfl, hp, rfl⟩)))

/-! ### What a command can do -/

/-- A stage whose result fits OUTBUF whenever its input fits INBUF (R11). -/
def StageFits (f : Params → Key → List Byte → Except ErrCode (List Byte)) : Prop :=
  ∀ p k d r, d.length ≤ inCap p → f p k d = .ok r → r.length ≤ outCap p

theorem pldEncStage_fits : StageFits pldEncStage := by
  intro p k d r hd hr
  cases hr
  rw [length_pldEnc]
  exact hd.trans (inCap_le_outCap p)

theorem pldDecStage_fits : StageFits pldDecStage := by
  intro p k d r hd hr
  cases hr
  rw [length_pldDec]
  exact hd.trans (inCap_le_outCap p)

theorem b64EncStage_fits : StageFits fun _ _ => b64EncStage := by
  intro p k d r hd hr
  cases hr
  rw [length_b64Enc]
  exact textLength_le_outCap hd

theorem encodeStage_fits : StageFits encodeStage := by
  intro p k d r hd hr
  cases hr
  rw [length_b64Enc, length_pldEnc]
  exact textLength_le_outCap hd

/-- The bytes of a base64 text that fits INBUF fit OUTBUF. -/
theorem length_b64Dec_le_outCap {p : Params} {t d : List Byte} (ht : t.length ≤ inCap p) (h : b64Dec t = some d) :
    d.length ≤ outCap p := by
  have hdec := length_b64Dec_le h
  have hcap := inCap_le_outCap p
  omega

theorem b64DecStage_fits : StageFits fun _ _ => b64DecStage := by
  intro p k d r hd hr
  simp only [b64DecStage] at hr
  split at hr <;> cases hr
  exact length_b64Dec_le_outCap hd ‹_›

theorem decodeStage_fits : StageFits decodeStage := by
  intro p k d r hd hr
  unfold decodeStage at hr
  split at hr
  · cases hr
  · split at hr <;> cases hr
    rw [length_pldDec]
    exact length_b64Dec_le_outCap hd ‹_›

/-- Every buffer command is the shared operation, with or without the checks of a codec command, at a stage that fits. -/
theorem exec_eq_bufferCommand_or_codecCommand {i : Instr} (hi : isBufferCommand i = true) :
    ∃ f, StageFits f ∧ ((∀ s, exec i s = .next (bufferCommand s (f s.params s.key))) ∨
      ∃ nullin, ∀ s, exec i s = .next (codecCommand nullin s (f s.params s.key))) := by
  cases i with
  | pldenc => exact ⟨_, pldEncStage_fits, .inl fun _ => rfl⟩
  | plddec => exact ⟨_, pldDecStage_fits, .inl fun _ => rfl⟩
  | b64enc => exact ⟨_, b64EncStage_fits, .inl fun _ => rfl⟩
  | b64dec => exact ⟨_, b64DecStage_fits, .inl fun _ => rfl⟩
  | encode nullin => exact ⟨_, encodeStage_fits, .inr ⟨nullin, fun _ => rfl⟩⟩
  | decode nullin => exact ⟨_, decodeStage_fits, .inr ⟨nullin, fun _ => rfl⟩⟩
  | nop | blkenc | blkdec | bytenc | bytdec | zeroize => cases hi

theorem bufferCommand_ends {f : Params → Key → List Byte → Except ErrCode (List Byte)} (hf : StageFits f) (s : State) :
    (∃ e, bufferCommand s (f s.params s.key) = s.fail e) ∨
    ∃ d, bufferCommand s (f s.params s.key) = s.deliver d ∧ d.length ≤ outCap s.params := by
  rcases bufferCommand_cases s (f s.params s.key) with ⟨-, h⟩ | ⟨hin, d, hd, h⟩ | ⟨-, e, -, h⟩
  · exact .inl ⟨_, h⟩
  · exact .inr ⟨d, h, hf _ _ _ d ((length_input s).trans_le hin) hd⟩
  · exact .inl ⟨e, h⟩

/-- A buffer command fails, or delivers a result that OUTBUF has room for. -/
theorem exec_cases_of_buffer {i : Instr} {s t : State} (hi : isBufferCommand i = true) (h : exec i s = .next t) :
    (∃ e, t = s.fail e) ∨ ∃ d, t = s.deliver d ∧ d.length ≤ outCap s.params := by
  obtain ⟨f, hf, hexec | ⟨nullin, hexec⟩⟩ := exec_eq_bufferCommand_or_codecCommand hi <;>
    obtain rfl := Host.Outcome.next.inj ((hexec s).symm.trans h)
  · exact bufferCommand_ends hf s
  · rcases codecCommand_cases nullin s (f s.params s.key) with ⟨-, hc⟩ | ⟨-, -, hc⟩ | ⟨-, -, hc⟩
    · exact .inl ⟨_, hc⟩
    · exact .inl ⟨_, hc⟩
    · rw [hc]
      exact bufferCommand_ends hf s

/-- The other commands keep the state, put a result in the block or the byte registers, or clear everything. -/
theorem exec_cases_of_not_buffer {i : Instr} {s t : State} (hi : isBufferCommand i = false) (h : exec i s = .next t) :
    (i = .nop ∧ t = s) ∨
    (i ∈ [.blkenc, .blkdec] ∧ ∃ b, t = (s.setBlock b).setErr .ok) ∨
    (i ∈ [.bytenc, .bytdec] ∧ ∃ b, t = (s.setByte b).setErr .ok) ∨
    (i = .zeroize ∧ t = s.zeroized) := by
  cases i with
  | nop => exact .inl ⟨rfl, (Host.Outcome.next.inj h).symm⟩
  | blkenc | blkdec => exact .inr (.inl ⟨by decide, _, (Host.Outcome.next.inj h).symm⟩)
  | bytenc | bytdec => exact .inr (.inr (.inl ⟨by decide, _, (Host.Outcome.next.inj h).symm⟩))
  | zeroize => exact .inr (.inr (.inr ⟨rfl, (Host.Outcome.next.inj h).symm⟩))
  | pldenc | plddec | b64enc | b64dec | encode _ | decode _ => cases hi

theorem exec_params {i : Instr} {s t : State} (h : exec i s = .next t) : t.params = s.params := by
  rcases exec_cases h with ⟨-, rfl⟩ | ⟨-, b, rfl⟩ | ⟨-, b, rfl⟩ | ⟨-, rfl⟩ | ⟨e, rfl, -⟩ | ⟨d, rfl, -⟩ <;> rfl

/-- Of the commands only ZEROIZE writes K (R37). -/
theorem exec_key {i : Instr} {s t : State} (h : exec i s = .next t) (hi : i ≠ .zeroize) : t.key = s.key := by
  rcases exec_cases h with ⟨-, rfl⟩ | ⟨-, b, rfl⟩ | ⟨-, b, rfl⟩ | ⟨hz, -⟩ | ⟨e, rfl, -⟩ | ⟨d, rfl, -⟩
  case inr.inr.inr.inl => exact absurd hz hi
  all_goals rfl

/-! ### The invariant -/

/-- The reset state meets the invariant: nothing is listed in the buffers, and draws 0 and 1 are made. -/
theorem inv_reset : Inv State.reset where
  inbufWf := Memory.wf_unspecified 0 _
  outbufWf := Memory.wf_unspecified 1 _
  outlenLe := Nat.zero_le _
  zeroAbove h := by cases h
  noResult _ := ⟨rfl, rfl⟩
  failedEmpty _ := rfl
  drawsMade d h := by rcases h with h | h <;> cases h <;> decide

theorem inv_afterReset (s : State) : Inv s.afterReset where
  inbufWf := Memory.wf_unspecified s.draws _
  outbufWf := Memory.wf_unspecified (s.draws + 1) _
  outlenLe := Nat.zero_le _
  zeroAbove h := by cases h
  noResult _ := ⟨rfl, rfl⟩
  failedEmpty _ := rfl
  drawsMade d h := by rcases h with h | h <;> cases h <;> simp

/-- What leaves OUTBUF, OUTLEN, the parameters and the draws alone keeps the invariant, when INBUF stays well formed with its
unlisted bytes as they were, and the code stays or becomes one that is not of R214. -/
theorem inv_of_same_output {s t : State} (h : Inv s) (hout : t.outbuf = s.outbuf) (hlen : t.outlen = s.outlen)
    (hparams : t.params = s.params) (hdraws : t.draws = s.draws) (hin : t.inbuf.wf (inCap s.params) = true)
    (hfill : t.inbuf.fill = s.inbuf.fill) (herr : t.err = s.err ∨ t.err ∈ [ErrCode.ok, .illegal]) : Inv t where
  inbufWf := by rwa [hparams]
  outbufWf := by rw [hout, hparams]; exact h.outbufWf
  outlenLe := by rw [hlen, hparams]; exact h.outlenLe
  zeroAbove := by rw [hout, hlen]; exact h.zeroAbove
  noResult := by rw [hout, hlen]; exact h.noResult
  failedEmpty hfail := by
    rcases herr with herr | herr
    · rw [hlen]; exact h.failedEmpty (herr ▸ hfail)
    · exact absurd herr hfail
  drawsMade := by rw [hfill, hout, hdraws]; exact h.drawsMade

/-- What writes a result `d`, or clears the output (`d` empty), gives a state that meets the invariant. -/
theorem inv_of_written {t : State} {d : List Byte} (hout : t.outbuf = Memory.ofBytes d)
    (hlen : t.outlen = BitVec.ofNat 32 d.length) (hfits : d.length ≤ outCap t.params)
    (hin : t.inbuf.wf (inCap t.params) = true) (hdraws : ∀ k, t.inbuf.fill = .unspecified k → k < t.draws)
    (hfail : t.err ∉ [ErrCode.ok, .illegal] → t.outlen = 0) : Inv t := by
  have hcap := outCap_le t.params
  have houtlen : t.outlen.toNat = d.length := by rw [hlen, BitVec.toNat_ofNat, Nat.mod_eq_of_lt (by omega)]
  exact {
    inbufWf := hin
    outbufWf := hout ▸ Memory.wf_ofBytes hfits
    outlenLe := houtlen ▸ hfits
    zeroAbove := fun _ i hi => by rw [hout, Memory.get_ofBytes, List.getD_eq_default _ _ (houtlen ▸ hi)]
    noResult := fun hfill => absurd (congrArg Memory.fill hout) hfill
    failedEmpty := hfail
    drawsMade := fun k hk => hk.elim (hdraws k) fun hk => by rw [hout] at hk; cases hk }

theorem inv_pending {s : State} (h : Inv s) (rest : List HostEvent) : Inv (s.pending rest) :=
  inv_of_same_output h rfl rfl rfl rfl h.inbufWf rfl (.inl rfl)

theorem inv_answer {s : State} (h : Inv s) (r : Reply) : Inv (s.answer r) :=
  inv_of_same_output h rfl rfl rfl rfl h.inbufWf rfl (.inl rfl)

theorem inv_setErr {s : State} (h : Inv s) {e : ErrCode} (he : e ∈ [ErrCode.ok, .illegal]) : Inv (s.setErr e) :=
  inv_of_same_output h rfl rfl rfl rfl h.inbufWf rfl (.inr he)

theorem inv_fail {s : State} (h : Inv s) (e : ErrCode) : Inv (s.fail e) :=
  inv_of_written (d := []) rfl rfl (Nat.zero_le _) h.inbufWf (fun k hk => h.drawsMade k (.inl hk)) fun _ => rfl

theorem inv_deliver {s : State} (h : Inv s) {d : List Byte} (hd : d.length ≤ outCap s.params) : Inv (s.deliver d) :=
  inv_of_written rfl rfl hd h.inbufWf (fun k hk => h.drawsMade k (.inl hk)) fun herr => absurd (List.mem_cons_self ..) herr

theorem inv_zeroized (s : State) : Inv s.zeroized :=
  inv_of_written (d := []) rfl rfl (Nat.zero_le _) (Memory.wf_zeros _) (fun _ hk => by cases hk) fun _ => rfl

/-- A command keeps the invariant. -/
theorem inv_exec {i : Instr} {s t : State} (h : Inv s) (hexec : exec i s = .next t) : Inv t := by
  cases hi : isBufferCommand i with
  | true =>
    rcases exec_cases_of_buffer hi hexec with ⟨e, rfl⟩ | ⟨d, rfl, hd⟩
    · exact inv_fail h e
    · exact inv_deliver h hd
  | false =>
    rcases exec_cases_of_not_buffer hi hexec with ⟨-, rfl⟩ | ⟨-, b, rfl⟩ | ⟨-, b, rfl⟩ | ⟨-, rfl⟩
    · exact h
    · exact inv_of_same_output h rfl rfl rfl rfl h.inbufWf rfl (.inr (List.mem_cons_self ..))
    · exact inv_of_same_output h rfl rfl rfl rfl h.inbufWf rfl (.inr (List.mem_cons_self ..))
    · exact inv_zeroized s

/-- What the host stores stays within the place that its access resolves to, so the invariant is kept. -/
theorem inv_hostStore {s : State} {a : Offset} {n : Nat} {p : Place} (h : Inv s) (hp : resolve s.params a n = some p)
    (v : Nat) : Inv (s.hostStore p n v) := by
  rcases resolve_cases hp with ⟨r, rfl, -⟩ | ⟨hn, ⟨i, rfl, -, hi⟩ | ⟨i, rfl, -⟩⟩
  · exact inv_of_same_output h (by simp) (by simp) (by simp) (by simp) (by simpa [State.hostStore] using h.inbufWf)
      (by simp [State.hostStore]) (.inl (by simp))
  · exact inv_of_same_output h rfl rfl rfl rfl (Memory.wf_store v (hn.imp_right And.left) hi h.inbufWf)
      (Memory.store_fill ..) (.inl rfl)
  · exact h

/-- An event keeps the invariant. -/
theorem inv_serve {e : HostEvent} {s t : State} (h : Inv s) (hserve : serve e s = .next t) : Inv t := by
  rcases serve_cases hserve with ⟨-, rfl⟩ | ⟨a, n, r, -, rfl⟩ | ⟨a, n, v, i, -, -, -, hexec⟩ | ⟨a, n, v, -, rfl⟩ |
    ⟨a, n, v, p, -, hp, rfl⟩
  · exact inv_afterReset s
  · exact inv_answer h r
  · exact inv_exec (inv_answer h .done) hexec
  · exact inv_setErr (inv_answer h .done) (by decide)
  · exact inv_answer (inv_hostStore h hp v) .done

/-- Settles O57: an idle step changes nothing, and every event keeps the invariant. -/
theorem everyStepKeepsTheInvariant : Obligations.EveryStepKeepsTheInvariant := by
  intro s t h hstep
  rcases step_cases hstep with rfl | ⟨e, rest, -, hserve⟩
  · exact h
  · exact inv_serve (inv_pending h rest) hserve

/-- Settles O56, by `inv_reset`. -/
theorem invariantHoldsAtReset : Obligations.InvariantHoldsAtReset := inv_reset

/-! ### The parameters and the registers after reset -/

theorem serve_params {e : HostEvent} {s t : State} (h : serve e s = .next t) : t.params = s.params := by
  rcases serve_cases h with ⟨-, rfl⟩ | ⟨a, n, r, -, rfl⟩ | ⟨a, n, v, i, -, -, -, hexec⟩ | ⟨a, n, v, -, rfl⟩ |
    ⟨a, n, v, p, -, -, rfl⟩
  · rfl
  · rfl
  · exact (exec_params hexec :)
  · rfl
  · simp

theorem step_params {s t : State} (h : step s = .next t) : t.params = s.params := by
  rcases step_cases h with rfl | ⟨e, rest, -, hserve⟩
  · rfl
  · exact (serve_params hserve :)

/-- Settles O58: no event writes the parameters, so they can be put back beside the next state. -/
theorem noStepChangesTheParameters : Obligations.NoStepChangesTheParameters := by
  intro s
  refine ⟨?_, fun t ht => ⟨step_params ht, ?_, ?_⟩⟩
  · rw [stepUnder_params]
    cases hs : step s with
    | next t => simp only [mapNext_next, ← step_params hs]
    | fault r => rfl
    | refused r => rfl
  · simp only [State.readReg, step_params ht]
  · simp only [State.readReg, step_params ht]

/-- Settles O53, register by register. -/
theorem resetStateRegisters : Obligations.ResetStateRegisters := by
  refine ⟨fun r hr => ?_, rfl, rfl⟩
  cases r with
  | cap => exact absurd rfl hr
  | cmd | status | inlen | outlen | klen | idx | sbyte | v0 | v1 | k0 | k1 | k2 | k3 => rfl

/-! ### The key -/

/-- Byte `4i + j` of the key is byte `j` of K[i] (R21). -/
theorem keyByte_four_mul_add (k : Key) (i : Nat) {j : Nat} (hj : j < 4) : k.byte (4 * i + j) = byteOf (k.word i) j := by
  rw [Key.byte, show (4 * i + j) / 4 = i by omega, show (4 * i + j) % 4 = j by omega]

/-- Settles O20: the four key bytes are those of K[i], which LE32 puts together again. -/
theorem keyWordsAreFourKeyBytes : Obligations.KeyWordsAreFourKeyBytes := by
  intro k i _
  have hzero : k.byte (4 * i) = byteOf (k.word i) 0 := keyByte_four_mul_add k i (j := 0) (by decide)
  rw [hzero, keyByte_four_mul_add k i (j := 1) (by decide), keyByte_four_mul_add k i (j := 2) (by decide),
    keyByte_four_mul_add k i (j := 3) (by decide), le32_byteOf]

theorem writeReg_key {s : State} {r : Reg} {v : Word} (h : (s.writeReg r v).key ≠ s.key) : r ∈ [.k0, .k1, .k2, .k3] := by
  cases r with
  | k0 | k1 | k2 | k3 => decide
  | cmd | status | inlen | outlen | klen | idx | sbyte | cap | v0 | v1 => exact absurd rfl h

/-- A stored value reaches K only through a word access to one of its four registers. -/
theorem hostStore_key {s : State} {a : Offset} {n v : Nat} {p : Place} (hp : resolve s.params a n = some p)
    (h : (s.hostStore p n v).key ≠ s.key) : n = 4 ∧ a ∈ ([0x30, 0x34, 0x38, 0x3C] : List Offset) := by
  rcases resolve_cases hp with ⟨r, rfl, hn, ha⟩ | ⟨-, ⟨i, rfl, -⟩ | ⟨i, rfl, -⟩⟩
  · have hoffset : a = BitVec.ofNat 22 (regOffset r) := by rw [← ha, BitVec.ofNat_toNat, BitVec.setWidth_eq]
    have hkey : ∀ r ∈ [Reg.k0, .k1, .k2, .k3], BitVec.ofNat 22 (regOffset r) ∈ ([0x30, 0x34, 0x38, 0x3C] : List Offset) := by
      decide
    exact ⟨hn, hoffset ▸ hkey r (writeReg_key h)⟩
  · exact absurd rfl h
  · exact absurd rfl h

/-- An access that resolves to CMD is a word access at offset 0. -/
theorem eq_zero_of_resolve_cmd {p : Params} {a : Offset} {n : Nat} (h : resolve p a n = some (.reg .cmd)) : a = 0 ∧ n = 4 := by
  rcases resolve_cases h with ⟨r, hr, hn, ha⟩ | ⟨-, ⟨i, hi, -⟩ | ⟨i, hi, -⟩⟩
  · cases hr
    exact ⟨BitVec.eq_of_toNat_eq ha, hn⟩
  · cases hi
  · cases hi

/-- Settles O59: of the events that are not a reset, only ZEROIZE, whose word is 0x0B, and a store to K reach the key. -/
theorem onlyKeyWritesZeroizeAndResetChangeTheKey : Obligations.OnlyKeyWritesZeroizeAndResetChangeTheKey := by
  intro s t e rest hscript hstep hkey
  rcases serve_cases ((step_event hscript).symm.trans hstep) with ⟨rfl, -⟩ | ⟨a, n, r, -, rfl⟩ |
    ⟨a, n, v, i, rfl, hcmd, hdecode, hexec⟩ | ⟨a, n, v, -, rfl⟩ | ⟨a, n, v, p, rfl, hp, rfl⟩
  · exact .inl rfl
  · exact absurd rfl hkey
  · have hi : i = .zeroize := by_contra fun hi => hkey (exec_key hexec hi :)
    obtain ⟨rfl, rfl⟩ := eq_zero_of_resolve_cmd hcmd
    subst hi
    exact .inr (.inl ⟨v, rfl, (encode_of_decode hdecode).symm⟩)
  · exact absurd rfl hkey
  · obtain ⟨rfl, ha⟩ := hostStore_key hp hkey
    exact .inr (.inr ⟨v, a, ha, rfl⟩)

/-! ### What a command reads and writes -/

/-- A buffer command sees INBUF only through its input, the bytes below INLEN (R80). -/
theorem bufferCommand_inbuf {s : State} {m : Memory} (f : List Byte → Except ErrCode (List Byte))
    (h : ∀ j, j < s.inlen.toNat → m.get j = s.inbuf.get j) :
    bufferCommand { s with inbuf := m } f = { bufferCommand s f with inbuf := m } := by
  have hinput : State.input { s with inbuf := m } = s.input := Memory.read_congr h
  unfold bufferCommand
  rw [hinput]
  split
  · rfl
  · split <;> rfl

theorem codecCommand_inbuf {s : State} {m : Memory} (nullin : Bool) (f : List Byte → Except ErrCode (List Byte))
    (h : ∀ j, j < s.inlen.toNat → m.get j = s.inbuf.get j) :
    codecCommand nullin { s with inbuf := m } f = { codecCommand nullin s f with inbuf := m } := by
  unfold codecCommand
  split
  · rfl
  · split
    · rfl
    · exact bufferCommand_inbuf f h

/-- The other commands but ZEROIZE neither read nor write INBUF (R37). -/
theorem exec_inbuf_of_not_buffer {i : Instr} (hi : isBufferCommand i = false) (hz : i ≠ .zeroize) (s : State) (m : Memory) :
    exec i { s with inbuf := m } = mapNext (fun t => { t with inbuf := m }) (exec i s) := by
  cases i with
  | nop | blkenc | blkdec | bytenc | bytdec => rfl
  | zeroize => exact absurd rfl hz
  | pldenc | plddec | b64enc | b64dec | encode _ | decode _ => cases hi

/-- Settles O44: a buffer command reads its input only, the others nothing of INBUF. -/
theorem inputAboveInlenIsNeverRead : Obligations.InputAboveInlenIsNeverRead := by
  intro i s t m hz hbelow hexec
  cases hi : isBufferCommand i with
  | true =>
    obtain ⟨f, -, hshape | ⟨nullin, hshape⟩⟩ := exec_eq_bufferCommand_or_codecCommand hi <;>
      obtain rfl := Host.Outcome.next.inj ((hshape s).symm.trans hexec) <;> rw [hshape]
    · exact congrArg _ (bufferCommand_inbuf _ hbelow)
    · exact congrArg _ (codecCommand_inbuf nullin _ hbelow)
  | false => rw [exec_inbuf_of_not_buffer hi hz, hexec, mapNext_next]

/-- A buffer command leaves its operands alone (R37). -/
theorem exec_sameOperands_of_buffer {i : Instr} {s t : State} (hi : isBufferCommand i = true) (h : exec i s = .next t) :
    SameOperands s t := by
  rcases exec_cases_of_buffer hi h with ⟨e, rfl⟩ | ⟨d, rfl, -⟩ <;> simp [SameOperands]

/-- Settles O45: row by row of R37, the buffer commands first. -/
theorem commandsWriteOnlyTheirRow : Obligations.CommandsWriteOnlyTheirRow := by
  intro i s t h hz
  cases hi : isBufferCommand i with
  | true =>
    obtain ⟨hinlen, hklen, hidx, hsbyte, hv0, hv1, hkey, hinbuf, -⟩ := exec_sameOperands_of_buffer hi h
    have hnop : i ≠ .nop := by rintro rfl; cases hi
    exact ⟨⟨hkey, hklen, hinlen, hidx, hinbuf⟩, fun _ => ⟨hv0, hv1⟩, fun _ => hsbyte, nofun, fun hn => absurd hn hnop⟩
  | false =>
    rcases exec_cases_of_not_buffer hi h with ⟨-, rfl⟩ | ⟨hblk, b, rfl⟩ | ⟨hbyt, b, rfl⟩ | ⟨hzero, -⟩
    · simp
    · have hnop : i ≠ .nop := by rintro rfl; exact absurd hblk (by decide)
      simp [hblk, hnop]
    · have hnop : i ≠ .nop := by rintro rfl; exact absurd hbyt (by decide)
      simp [hbyt, hnop]
    · exact absurd hzero hz

/-! ### A placed word -/

theorem decodeTableWord_eq_some {nbits w : Nat} {i : Instr} :
    decodeTableWord nbits w = some i ↔ decode (tableWord nbits w) = .command i := by
  unfold decodeTableWord
  cases decode (tableWord nbits w) <;> simp

/-- Settles O6: the placed word is a write to CMD at the head of the host's list. -/
theorem placedWordRunsNext : Obligations.PlacedWordRunsNext := by
  intro s w i hdecode
  have hscript : (s.withFetchWord 32 w).script = .write 0 4 (tableWord 32 w).toNat :: s.script := rfl
  rw [step_cmd_write hscript, BitVec.ofNat_toNat, BitVec.setWidth_eq,
    launch_of_decode_command (decodeTableWord_eq_some.mp hdecode)]
  rfl

end Sys2Proof.Proofs
end

section
/-! SUPPORT. The statements of spec/20_memory.md: which accesses answer buserr (R61 to R67, R70), the registers as the host sees
them (R68, R69), and the bytes and words of the buffers (R63, R64). -/

namespace Sys2Proof.Proofs

open Sys2Proof.Machine Sys2Proof.Claims

/-! ### Where an access goes -/

/-- The offsets that R20 lists are those of the registers. -/
theorem mem_regOffsets {o : Nat} :
    o ∈ [0x00, 0x04, 0x08, 0x0C, 0x10, 0x14, 0x18, 0x1C, 0x20, 0x24, 0x30, 0x34, 0x38, 0x3C] ↔ ∃ r, o = regOffset r := by
  constructor
  · intro ho
    have hlist : o ∈ [Reg.cmd, .status, .inlen, .outlen, .klen, .idx, .sbyte, .cap, .v0, .v1, .k0, .k1, .k2, .k3].map
      regOffset := ho
    obtain ⟨r, -, hr⟩ := List.mem_map.mp hlist
    exact ⟨r, hr.symm⟩
  · rintro ⟨r, rfl⟩
    cases r <;> decide

/-- The legal accesses are those that reach a place. -/
theorem legalAccess_iff_resolve {p : Params} {a : Offset} {n : Nat} :
    LegalAccess p a n ↔ ∃ pl, resolve p a n = some pl := by
  constructor
  · rintro (⟨rfl, hreg⟩ | ⟨hn, ⟨hbase, hend⟩ | ⟨hbase, hend⟩⟩)
    · obtain ⟨r, hr⟩ := mem_regOffsets.mp hreg
      exact ⟨_, resolve_reg p r hr⟩
    · obtain ⟨i, hi⟩ := Nat.exists_eq_add_of_le hbase
      exact ⟨_, resolve_input (i := i) (by omega) hi (by omega)⟩
    · obtain ⟨i, hi⟩ := Nat.exists_eq_add_of_le hbase
      exact ⟨_, resolve_output (i := i) (by omega) hi (by omega)⟩
  · rintro ⟨pl, hpl⟩
    rcases resolve_cases hpl with ⟨r, -, hn, hr⟩ | ⟨hn, ⟨i, -, ha, hi⟩ | ⟨i, -, ha, hi⟩⟩
    · exact .inl ⟨hn, mem_regOffsets.mpr ⟨r, hr⟩⟩
    · exact .inr ⟨hn, .inl (by unfold inBase at ha; omega)⟩
    · exact .inr ⟨hn, .inr (by unfold outBase at ha; omega)⟩

theorem not_legalAccess_iff_resolve {p : Params} {a : Offset} {n : Nat} : ¬ LegalAccess p a n ↔ resolve p a n = none := by
  rw [legalAccess_iff_resolve, ← Option.isSome_iff_exists, Option.not_isSome_iff_eq_none]

/-- A byte or an aligned word that begins inside INBUF lies inside it, IN_CAP being a multiple of 4 (R10). -/
theorem resolve_inbuf {p : Params} {n i : Nat} (hn : n = 1 ∨ n = 4 ∧ i % 4 = 0) (hi : i < inCap p) :
    resolve p (BitVec.ofNat 22 (0x100000 + i)) n = some (.input i) := by
  have hmod := inCap_mod_four p
  have hcap := inCap_le p
  exact resolve_input hn (Nat.mod_eq_of_lt (by omega)) (by omega)

/-- A byte or an aligned word that begins inside OUTBUF lies inside it, OUT_CAP being a multiple of 4 (R10). -/
theorem resolve_outbuf {p : Params} {n i : Nat} (hn : n = 1 ∨ n = 4 ∧ i % 4 = 0) (hi : i < outCap p) :
    resolve p (BitVec.ofNat 22 (0x200000 + i)) n = some (.output i) := by
  have hmod := outCap_mod_four p
  have hcap := outCap_le p
  exact resolve_output hn (Nat.mod_eq_of_lt (by omega)) (by omega)

/-! ### Refusals -/

theorem exists_exec_eq_next (i : Instr) (s : State) : ∃ t, exec i s = .next t := by
  cases i <;> exact ⟨_, rfl⟩

/-- A launched word always has a next state, be it legal or not (R96, R203). -/
theorem exists_launch_eq_next (w : Word) (s : State) : ∃ t, launch w s = .next t := by
  rcases launch_cases w s with ⟨i, -, hlaunch⟩ | ⟨_, -, hlaunch⟩
  · rw [hlaunch]
    exact exists_exec_eq_next i s
  · exact ⟨_, hlaunch⟩

theorem serve_read_eq_buserr_iff {s : State} {a : Offset} {n : Nat} :
    serve (.read a n) s = .refused .buserr ↔ resolve s.params a n = none := by
  rcases serve_read_cases s a n with ⟨hnone, hserve⟩ | ⟨p, r, hsome, hserve⟩
  · simp [hnone, hserve]
  · simp [hsome, hserve]

theorem serve_write_eq_buserr_iff {s : State} {a : Offset} {n v : Nat} :
    serve (.write a n v) s = .refused .buserr ↔ resolve s.params a n = none := by
  rcases serve_write_cases s a n v with ⟨hnone, hserve⟩ | ⟨hcmd, hserve⟩ | ⟨p, hsome, -, hserve⟩
  · simp [hnone, hserve]
  · obtain ⟨t, ht⟩ := exists_launch_eq_next (BitVec.ofNat 32 v) (s.answer .done)
    simp [hcmd, hserve, ht]
  · simp [hsome, hserve]

/-- Settles O46: an event is refused exactly when its access reaches no place, which is what makes it illegal. -/
theorem illegalAccessesAreRefused : Obligations.IllegalAccessesAreRefused := by
  intro s rest a n v
  rw [not_legalAccess_iff_resolve]
  constructor <;> intro hscript <;> rw [step_event hscript]
  · exact serve_read_eq_buserr_iff
  · exact serve_write_eq_buserr_iff

/-! ### A step that is a legal access -/

/-- A legal read answers what the host reads, and changes nothing (R68). -/
theorem step_read {s : State} {rest : List HostEvent} {a : Offset} {n : Nat} {r : Reply} (hread : hostRead s a n = some r)
    (hscript : s.script = .read a n :: rest) : step s = .next (answered s rest r) := by
  have hpending : hostRead (s.pending rest) a n = some r := hread
  rw [step_event hscript, serve, hpending]
  rfl

/-- A stored value does not depend on what the host has still pending. -/
theorem hostStore_pending (s : State) (rest : List HostEvent) (p : Place) (n v : Nat) :
    (s.pending rest).hostStore p n v = (s.hostStore p n v).pending rest := by
  cases p with
  | reg r => cases r <;> rfl
  | input i | output i => rfl

/-- A legal write elsewhere than to CMD stores its value and is answered ok (R68, R69). -/
theorem step_write {s : State} {rest : List HostEvent} {a : Offset} {n v : Nat} {p : Place}
    (hp : resolve s.params a n = some p) (hcmd : p ≠ .reg .cmd) (hscript : s.script = .write a n v :: rest) :
    step s = .next (answered (s.hostStore p n v) rest .done) := by
  have hpending : resolve (s.pending rest).params a n = some p := hp
  rw [step_event hscript, serve, hpending]
  simp only [hostStore_pending]
  rfl

/-! ### Registers -/

theorem step_read_reg {s : State} {rest : List HostEvent} {a : Offset} (r : Reg) (ha : a.toNat = regOffset r)
    (hscript : s.script = .read a 4 :: rest) : step s = .next (answered s rest (.word (s.readReg r))) :=
  step_read (by rw [hostRead, resolve_reg _ r ha]) hscript

theorem step_write_reg {s : State} {rest : List HostEvent} {a : Offset} {v : Nat} (r : Reg) (hr : r ≠ .cmd)
    (ha : a.toNat = regOffset r) (hscript : s.script = .write a 4 v :: rest) :
    step s = .next (answered (s.writeReg r (BitVec.ofNat 32 v)) rest .done) :=
  step_write (resolve_reg _ r ha) (fun h => hr (Place.reg.inj h)) hscript

theorem statusWord_eq_ofNat (e : ErrCode) : e.statusWord = BitVec.ofNat 32 (codeNumber e) := by
  cases e <;> rfl

/-- Settles O47, register by register. -/
theorem registerReadsReturnTheirValues : Obligations.RegisterReadsReturnTheirValues := by
  intro s rest
  rw [← statusWord_eq_ofNat, BitVec.ofNat_toNat]
  simp only [List.forall_mem_cons]
  exact ⟨step_read_reg .cmd rfl, step_read_reg .status rfl, step_read_reg .inlen rfl, step_read_reg .outlen rfl,
    step_read_reg .klen rfl, step_read_reg .idx rfl, step_read_reg .sbyte rfl, step_read_reg .cap rfl, step_read_reg .v0 rfl,
    step_read_reg .v1 rfl, step_read_reg .k0 rfl, step_read_reg .k1 rfl, step_read_reg .k2 rfl, step_read_reg .k3 rfl, nofun⟩

/-- Settles O48, register by register; SBYTE keeps the low byte of the word written. -/
theorem registerWritesStoreTheirValue : Obligations.RegisterWritesStoreTheirValue := by
  intro s rest v
  have hsbyte : (BitVec.ofNat 32 v).setWidth 8 = BitVec.ofNat 8 v := BitVec.setWidth_ofNat_of_le (by decide) v
  rw [← hsbyte]
  simp only [List.forall_mem_cons]
  exact ⟨step_write_reg .inlen nofun rfl, step_write_reg .klen nofun rfl, step_write_reg .idx nofun rfl,
    step_write_reg .sbyte nofun rfl, step_write_reg .v0 nofun rfl, step_write_reg .v1 nofun rfl, step_write_reg .k0 nofun rfl,
    step_write_reg .k1 nofun rfl, step_write_reg .k2 nofun rfl, step_write_reg .k3 nofun rfl, nofun⟩

/-- A write to OUTBUF changes nothing (R69). -/
theorem step_write_outbuf {s : State} {rest : List HostEvent} {n i v : Nat} (hn : n = 1 ∨ n = 4 ∧ i % 4 = 0)
    (hi : i < outCap s.params) (hscript : s.script = .write (BitVec.ofNat 22 (0x200000 + i)) n v :: rest) :
    step s = .next (answered s rest .done) :=
  step_write (resolve_outbuf hn hi) nofun hscript

/-- Settles O49: the three read-only registers, OUTBUF, and CMD. -/
theorem readOnlyPlacesIgnoreWrites : Obligations.ReadOnlyPlacesIgnoreWrites := by
  intro s rest v i
  refine ⟨?_, step_write_outbuf (.inl rfl), fun hmod => step_write_outbuf (.inr ⟨rfl, hmod⟩), step_read_reg .cmd rfl⟩
  simp only [List.forall_mem_cons]
  exact ⟨step_write_reg .status nofun rfl, step_write_reg .outlen nofun rfl, step_write_reg .cap nofun rfl, nofun⟩

/-! ### Buffers -/

/-- A word of a buffer is the little-endian sum of its four bytes (R63). -/
theorem getWord_eq_ofNat_sum (m : Memory) (i : Nat) : m.getWord i = BitVec.ofNat 32
    ((m.get i).toNat + 2 ^ 8 * (m.get (i + 1)).toNat + 2 ^ 16 * (m.get (i + 2)).toNat + 2 ^ 24 * (m.get (i + 3)).toNat) := by
  rw [← toNat_le32, BitVec.ofNat_toNat, BitVec.setWidth_eq, Memory.getWord]

/-- Byte `k` of the low word of `v` is bits 8k+7:8k of `v` (R17). -/
theorem byteOf_ofNat (v : Nat) {k : Nat} (hk : k < 4) : byteOf (BitVec.ofNat 32 v) k = BitVec.ofNat 8 (v / 2 ^ (8 * k)) := by
  refine BitVec.eq_of_getLsbD_eq fun j hj => ?_
  have hbit : 8 * k + j < 32 := by omega
  rw [byteOf, BitVec.getLsbD_extractLsb', BitVec.getLsbD_ofNat, BitVec.getLsbD_ofNat, Nat.testBit_div_two_pow,
    decide_eq_true hbit, Bool.true_and, Nat.add_comm]

theorem step_read_inbuf {s : State} {rest : List HostEvent} {n i : Nat} (hn : n = 1 ∨ n = 4 ∧ i % 4 = 0)
    (hi : i < inCap s.params) (hscript : s.script = .read (BitVec.ofNat 22 (0x100000 + i)) n :: rest) :
    step s = .next (answered s rest (s.inbuf.reply i n)) :=
  step_read (by rw [hostRead, resolve_inbuf hn hi]) hscript

theorem step_read_outbuf {s : State} {rest : List HostEvent} {n i : Nat} (hn : n = 1 ∨ n = 4 ∧ i % 4 = 0)
    (hi : i < outCap s.params) (hscript : s.script = .read (BitVec.ofNat 22 (0x200000 + i)) n :: rest) :
    step s = .next (answered s rest (s.outbuf.reply i n)) :=
  step_read (by rw [hostRead, resolve_outbuf hn hi]) hscript

theorem step_write_inbuf {s : State} {rest : List HostEvent} {n i v : Nat} (hn : n = 1 ∨ n = 4 ∧ i % 4 = 0)
    (hi : i < inCap s.params) (hscript : s.script = .write (BitVec.ofNat 22 (0x100000 + i)) n v :: rest) :
    step s = .next (answered { s with inbuf := s.inbuf.store i n v } rest .done) :=
  step_write (resolve_inbuf hn hi) nofun hscript

/-- Settles O50: a read replies with the byte or with the word, which is the little-endian sum. -/
theorem bufferReadsAreLittleEndian : Obligations.BufferReadsAreLittleEndian := by
  intro s rest i value
  have hword (m : Memory) : value m = m.getWord i := (getWord_eq_ofNat_sum m i).symm
  rw [hword, hword]
  exact ⟨step_read_inbuf (.inl rfl), fun hmod => step_read_inbuf (.inr ⟨rfl, hmod⟩),
    step_read_outbuf (.inl rfl), fun hmod => step_read_outbuf (.inr ⟨rfl, hmod⟩)⟩

theorem get_store_byte (m : Memory) (i v j : Nat) :
    (m.store i 1 v).get j = if j = i then BitVec.ofNat 8 v else m.get j := by
  simp only [Memory.store, if_true, Memory.get_set, eq_comm]

theorem get_store_word (m : Memory) (i v j : Nat) :
    (m.store i 4 v).get j = if i ≤ j ∧ j < i + 4 then BitVec.ofNat 8 (v / 2 ^ (8 * (j - i))) else m.get j := by
  rw [Memory.store, if_neg (by decide), Memory.get_setWord]
  split
  · rw [byteOf_ofNat v (by omega)]
  · rfl

/-- Settles O51: the new INBUF is the old one with the value stored, read back byte by byte. -/
theorem inbufWritesAreLittleEndian : Obligations.InbufWritesAreLittleEndian := fun s _ i v =>
  ⟨fun hi hscript => ⟨_, step_write_inbuf (.inl rfl) hi hscript, get_store_byte s.inbuf i v⟩,
   fun hmod hi hscript => ⟨_, step_write_inbuf (.inr ⟨rfl, hmod⟩) hi hscript, get_store_word s.inbuf i v⟩⟩

end Sys2Proof.Proofs
end

section
/-! SUPPORT. The statements of spec/30_encoding.md: the words and the commands (R90, R92, R94), the match and mask columns of the
opcode table (R92), and the illegal command (R96). -/

namespace Sys2Proof.Proofs

open Sys2Proof.Machine Sys2Proof.Claims

/-! ### Words and commands -/

/-- The round trip of every command, from the law of each constructor (R92, R94). -/
theorem decode_encode (i : Instr) : decode (encode i) = .command i := by
  have hlaw : Laws.RoundTrip.Statement i := by
    cases i with
    | nop => exact Laws.RoundTrip.nop
    | blkenc => exact Laws.RoundTrip.blkenc
    | blkdec => exact Laws.RoundTrip.blkdec
    | bytenc => exact Laws.RoundTrip.bytenc
    | bytdec => exact Laws.RoundTrip.bytdec
    | pldenc => exact Laws.RoundTrip.pldenc
    | plddec => exact Laws.RoundTrip.plddec
    | b64enc => exact Laws.RoundTrip.b64enc
    | b64dec => exact Laws.RoundTrip.b64dec
    | encode nullin => exact Laws.RoundTrip.encode nullin
    | decode nullin => exact Laws.RoundTrip.decode nullin
    | zeroize => exact Laws.RoundTrip.zeroize
  exact hlaw.2

theorem decode_eq_command_iff {w : Word} {i : Instr} : decode w = .command i ↔ w = encode i := by
  constructor
  · exact fun h => (encode_of_decode h).symm
  · rintro rfl
    exact decode_encode i

/-- Settles O1: encoding and decoding undo each other. -/
theorem wordsAndCommandsCorrespond : Obligations.WordsAndCommandsCorrespond := fun _ _ => decode_eq_command_iff

/-! ### The tests of the decoder, in the order of R94 -/

theorem decode_of_rsvField_ne_zero {w : Word} (h : rsvField w ≠ 0) : decode w = .illegal .reservedBits := by
  rw [decode, if_pos h]

theorem decode_of_instrOfOpcode_eq_none {w : Word} (hrsv : rsvField w = 0)
    (hrow : instrOfOpcode (opcField w) (nullinField w) = none) : decode w = .illegal .unknownOpcode := by
  rw [decode, if_neg (not_not.mpr hrsv), hrow]

theorem decode_of_instrOfOpcode_eq_some {w : Word} {i : Instr} (hrsv : rsvField w = 0)
    (hrow : instrOfOpcode (opcField w) (nullinField w) = some i) :
    decode w = if nullinField w && !i.takesNullin then .illegal .nullinNotTaken else .command i := by
  rw [decode, if_neg (not_not.mpr hrsv), hrow]

/-- The commands of the rows of R92, by opcode, with the NULLIN bit given. -/
def rowCommands (nullin : Bool) : List Instr :=
  [.nop, .blkenc, .blkdec, .bytenc, .bytdec, .pldenc, .plddec, .b64enc, .b64dec, .encode nullin, .decode nullin, .zeroize]

/-- The opcode is the position of its row. -/
theorem instrOfOpcode_eq_getElem? (opc : BitVec 8) (nullin : Bool) :
    instrOfOpcode opc nullin = (rowCommands nullin)[opc.toNat]? := by
  unfold instrOfOpcode
  split
  case h_13 =>
    have hge : 12 ≤ opc.toNat := by
      simp only [imp_false] at *
      omega
    exact (List.getElem?_eq_none hge).symm
  all_goals
    rename_i hopc
    rw [hopc]
    rfl

/-- Only the rows 0x09 and 0x0A have the NULLIN field (R93). -/
theorem takesNullin_iff_opcode (i : Instr) : i.takesNullin = true ↔ i.opcode.toNat ∈ [0x09, 0x0A] := by
  cases i with
  | encode _ | decode _ => exact iff_of_true rfl (by simp [Instr.opcode])
  | nop | blkenc | blkdec | bytenc | bytdec | pldenc | plddec | b64enc | b64dec | zeroize => decide

theorem takesNullin_iff_opcField {w : Word} {i : Instr} (hrow : instrOfOpcode (opcField w) (nullinField w) = some i) :
    i.takesNullin = true ↔ (opcField w).toNat ∈ [0x09, 0x0A] := by
  rw [takesNullin_iff_opcode, (fields_of_instrOfOpcode hrow).1]

/-! ### The legal words -/

/-- Every command, with each value of NULLIN where it has the field. -/
def allCommands : List Instr :=
  [.nop, .blkenc, .blkdec, .bytenc, .bytdec, .pldenc, .plddec, .b64enc, .b64dec, .encode false, .decode false, .zeroize,
   .encode true, .decode true]

theorem mem_allCommands (i : Instr) : i ∈ allCommands := by
  cases i with
  | encode nullin | decode nullin => cases nullin <;> decide
  | nop | blkenc | blkdec | bytenc | bytdec | pldenc | plddec | b64enc | b64dec | zeroize => decide

/-- A word is legal exactly when it is the word of one of the fourteen commands. -/
theorem exists_decode_eq_command_iff {w : Word} : (∃ i, decode w = .command i) ↔ w ∈ allCommands.map encode := by
  simp only [decode_eq_command_iff, List.mem_map, mem_allCommands, true_and, eq_comm]

/-- Settles O2: the four cases are the tests of R94, and the words are those of the fourteen commands. -/
theorem exactlyFourteenWordsAreLegal : Obligations.ExactlyFourteenWordsAreLegal := by
  intro w
  have hrows := instrOfOpcode_eq_getElem? (opcField w) (nullinField w)
  refine ⟨fun hrsv => ⟨_, decode_of_rsvField_ne_zero hrsv⟩, fun hrsv hopc => ?_, fun hrsv hnull hopc => ?_,
    fun hrsv hopc hnull => ?_, exists_decode_eq_command_iff⟩
  · exact ⟨_, decode_of_instrOfOpcode_eq_none hrsv (hrows.trans (List.getElem?_eq_none hopc))⟩
  · cases hrow : instrOfOpcode (opcField w) (nullinField w) with
    | none => exact ⟨_, decode_of_instrOfOpcode_eq_none hrsv hrow⟩
    | some i =>
      have htakes : i.takesNullin = false := Bool.eq_false_iff.mpr fun h => hopc ((takesNullin_iff_opcField hrow).mp h)
      have hset : nullinField w = true := hnull
      exact ⟨_, by rw [decode_of_instrOfOpcode_eq_some hrsv hrow, htakes, hset]; rfl⟩
  · have hlt : (opcField w).toNat < (rowCommands (nullinField w)).length := Nat.lt_succ_of_le hopc
    have hrow := hrows.trans (List.getElem?_eq_getElem hlt)
    have htaken : nullinField w = true → (rowCommands (nullinField w))[(opcField w).toNat].takesNullin = true :=
      fun h => (takesNullin_iff_opcField hrow).mpr (hnull h)
    refine ⟨_, (decode_of_instrOfOpcode_eq_some hrsv hrow).trans (if_neg ?_), (List.getD_eq_getElem _ _ hlt).symm⟩
    simpa using htaken

/-! ### The match and mask columns -/

/-- Where the mask leaves at most bit 8 free, a word that selects the row has that bit as in the match column or set. -/
theorem eq_matchWord_or_of_selects {r : OpcodeRow} {w : Word} (hfree : ~~~r.mask = 0 ∨ ~~~r.mask = BitVec.twoPow 32 8)
    (h : r.selects w = true) : w = r.matchWord ∨ w = r.matchWord ||| ~~~r.mask := by
  have hmatch : w &&& r.mask = r.matchWord := beq_iff_eq.mp h
  have hsplit : w = r.matchWord ||| (w &&& ~~~r.mask) := by
    rw [← hmatch, ← BitVec.and_or_distrib_left, BitVec.or_not_self, BitVec.and_allOnes]
  have hbit : w &&& ~~~r.mask = 0 ∨ w &&& ~~~r.mask = ~~~r.mask := by
    rcases hfree with hzero | hpow
    · exact .inl (by rw [hzero]; exact BitVec.and_zero)
    · rw [hpow, BitVec.and_twoPow]
      split
      · exact .inr rfl
      · exact .inl rfl
  rcases hbit with hclear | hset
  · exact .inl (by rw [hsplit, hclear]; exact BitVec.or_zero)
  · exact .inr (by rw [hsplit, hset])

/-- The table leaves only bit 8 free, and both words of a row are legal (R92). -/
theorem opcodeTable_words : ∀ r ∈ opcodeTable, (~~~r.mask = 0 ∨ ~~~r.mask = BitVec.twoPow 32 8) ∧
    r.matchWord ∈ allCommands.map encode ∧ (r.matchWord ||| ~~~r.mask) ∈ allCommands.map encode := by
  decide

/-- A word that selects a row is legal. -/
theorem exists_decode_of_selects {r : OpcodeRow} {w : Word} (hr : r ∈ opcodeTable) (h : r.selects w = true) :
    ∃ i, decode w = .command i := by
  obtain ⟨hfree, hmatch, hset⟩ := opcodeTable_words r hr
  rw [exists_decode_eq_command_iff]
  rcases eq_matchWord_or_of_selects hfree h with rfl | rfl
  · exact hmatch
  · exact hset

/-- Of the twelve rows, the word of a command selects the one with the command's mnemonic. -/
theorem selects_encode_iff {r : OpcodeRow} (hr : r ∈ opcodeTable) (i : Instr) :
    r.selects (encode i) = true ↔ i.mnemonic = r.mnemonic := by
  have htable : ∀ i ∈ allCommands, ∀ r ∈ opcodeTable, r.selects (encode i) = true ↔ i.mnemonic = r.mnemonic := by decide
  exact htable i (mem_allCommands i) r hr

/-- Settles O3: a word that selects a row is the word of a command, and a command's word selects the row of its mnemonic. -/
theorem tableRowsSelectWhatDecodes : Obligations.TableRowsSelectWhatDecodes := by
  intro r hr w
  constructor
  · intro hsel
    obtain ⟨i, hi⟩ := exists_decode_of_selects hr hsel
    obtain rfl := decode_eq_command_iff.mp hi
    exact ⟨i, hi, (selects_encode_iff hr i).mp hsel⟩
  · rintro ⟨i, hi, hname⟩
    obtain rfl := decode_eq_command_iff.mp hi
    exact (selects_encode_iff hr i).mpr hname

/-- Settles O4: seven words are encodings, and each of the others fails its test of R94. -/
theorem wordsOfTheTableDecode : Obligations.WordsOfTheTableDecode :=
  ⟨decode_encode .nop, decode_encode .blkenc, decode_encode .bytdec, decode_encode .b64enc, decode_encode (.encode false),
   decode_encode (.decode true), decode_encode .zeroize, decode_of_rsvField_ne_zero (by decide),
   decode_of_instrOfOpcode_eq_none rfl rfl, decode_of_instrOfOpcode_eq_some (i := .zeroize) rfl rfl⟩

/-! ### The illegal command -/

theorem launch_of_decode_illegal {w : Word} {why : IllegalWord} (h : decode w = .illegal why) (s : State) :
    launch w s = .next s.illegalCommand := by
  rw [launch, h]

/-- Settles O7: the write launches the word, which runs as the illegal command; STATUS then reads the number of its code. -/
theorem illegalWordWritesErrSixOnly : Obligations.IllegalWordWritesErrSixOnly := by
  intro s rest v why hscript hdecode
  constructor
  · rw [step_cmd_write hscript, launch_of_decode_illegal hdecode]
    rfl
  · exact statusWord_eq_ofNat .illegal

end Sys2Proof.Proofs
end

section
/-! SUPPORT. The statements of spec/40_block_cipher.md: the rounds of the two commands (R112 to R114, R118, R119), the two halves
as inverses (R115), and masking once (R116). -/

namespace Sys2Proof.Proofs

open Sys2Proof.Machine Sys2Proof.Claims

/-! ### The sum of a round -/

theorem roundSum_add (m n : Nat) : roundSum (m + n) = roundSum m + roundSum n := by
  rw [roundSum, Nat.add_mul, BitVec.ofNat_add]
  rfl

theorem roundSum_eq_mul_delta (r : Nat) : roundSum r = BitVec.ofNat 32 r * delta := BitVec.ofNat_mul r 0x9E3779B9

theorem roundSum_rounds : roundSum rounds = dsum0 := by decide

/-- What is left of DSUM0 after `r` rounds of decryption (R114). -/
theorem dsum0_sub_roundSum {r : Nat} (h : r ≤ rounds) : dsum0 - roundSum r = roundSum (rounds - r) := by
  rw [← roundSum_rounds]
  nth_rw 1 [← Nat.sub_add_cancel h]
  rw [roundSum_add, BitVec.add_sub_cancel]

/-! ### The first rounds of an operation -/

/-- The working values of TEA_ENC of `v` after `r` rounds. -/
def encRun (k : Key) (v : Word × Word) (r : Nat) : TeaWork := Nat.iterate (encRound k) r ⟨0, v.1, v.2⟩

/-- The working values of TEA_DEC of `v` after `r` rounds. -/
def decRun (k : Key) (v : Word × Word) (r : Nat) : TeaWork := Nat.iterate (decRound k) r ⟨dsum0, v.1, v.2⟩

theorem encRun_succ (k : Key) (v : Word × Word) (r : Nat) : encRun k v (r + 1) = encRound k (encRun k v r) :=
  Function.iterate_succ_apply' ..

theorem decRun_succ (k : Key) (v : Word × Word) (r : Nat) : decRun k v (r + 1) = decRound k (decRun k v r) :=
  Function.iterate_succ_apply' ..

theorem encRun_sum (k : Key) (v : Word × Word) (r : Nat) : (encRun k v r).sum = roundSum r := by
  rw [encRun, sum_iterate_encRound, roundSum_eq_mul_delta]
  exact BitVec.zero_add _

theorem decRun_sum (k : Key) (v : Word × Word) {r : Nat} (h : r ≤ rounds) : (decRun k v r).sum = roundSum (rounds - r) := by
  rw [decRun, sum_iterate_decRound, ← roundSum_eq_mul_delta, dsum0_sub_roundSum h]

theorem teaEnc_eq_encRun (k : Key) (v : Word × Word) : teaEnc k v = ((encRun k v rounds).v0, (encRun k v rounds).v1) := rfl

theorem teaDec_eq_decRun (k : Key) (v : Word × Word) : teaDec k v = ((decRun k v rounds).v0, (decRun k v rounds).v1) := rfl

/-- TEA_ENC leaves the sum that TEA_DEC starts from. -/
theorem encRun_rounds (k : Key) (v : Word × Word) : encRun k v rounds = ⟨dsum0, (teaEnc k v).1, (teaEnc k v).2⟩ := by
  rw [teaEnc_eq_encRun, ← roundSum_rounds, ← encRun_sum k v rounds]

/-- TEA_DEC leaves the sum that TEA_ENC starts from. -/
theorem decRun_rounds (k : Key) (v : Word × Word) : decRun k v rounds = ⟨0, (teaDec k v).1, (teaDec k v).2⟩ := by
  have hsum : (decRun k v rounds).sum = 0 := decRun_sum k v le_rfl
  rw [teaDec_eq_decRun, ← hsum]

/-! ### One round, as the words it adds or subtracts -/

theorem encRun_succ_v0 (k : Key) (v : Word × Word) (r : Nat) : (encRun k v (r + 1)).v0 =
    (encRun k v r).v0 + roundTerm (encRun k v r).v1 k.k0 k.k1 (roundSum (r + 1)) := by
  rw [← encRun_sum k v (r + 1), encRun_succ]
  rfl

theorem encRun_succ_v1 (k : Key) (v : Word × Word) (r : Nat) : (encRun k v (r + 1)).v1 =
    (encRun k v r).v1 + roundTerm (encRun k v (r + 1)).v0 k.k2 k.k3 (roundSum (r + 1)) := by
  rw [← encRun_sum k v (r + 1), encRun_succ]
  rfl

theorem decRun_succ_v1 (k : Key) (v : Word × Word) {r : Nat} (h : r ≤ rounds) : (decRun k v (r + 1)).v1 =
    (decRun k v r).v1 - roundTerm (decRun k v r).v0 k.k2 k.k3 (roundSum (rounds - r)) := by
  rw [← decRun_sum k v h, decRun_succ]
  rfl

theorem decRun_succ_v0 (k : Key) (v : Word × Word) {r : Nat} (h : r ≤ rounds) : (decRun k v (r + 1)).v0 =
    (decRun k v r).v0 - roundTerm (decRun k v (r + 1)).v1 k.k0 k.k1 (roundSum (rounds - r)) := by
  rw [← decRun_sum k v h, decRun_succ]
  rfl

/-! ### The two commands -/

theorem exec_blkenc (s : State) : exec .blkenc s = .next ((s.setBlock (teaEnc s.key (s.v0, s.v1))).setErr .ok) := by
  rw [exec, execBlkenc]

theorem exec_blkdec (s : State) : exec .blkdec s = .next ((s.setBlock (teaDec s.key (s.v0, s.v1))).setErr .ok) := by
  rw [exec, execBlkdec]

/-- The end of a block command writes V0, V1 and ERR (R118, R119). -/
theorem setErr_setBlock (s : State) (b : Word × Word) :
    (s.setBlock b).setErr .ok = { s with v0 := b.1, v1 := b.2, err := .ok } := rfl

/-- Settles O10: the sequences are V0 and V1 of the working values after each round. -/
theorem blkencRunsTheRounds : Obligations.BlkencRunsTheRounds := by
  refine ⟨decode_encode .blkenc, fun s => ?_⟩
  refine ⟨fun r => (encRun s.key (s.v0, s.v1) r).v0, fun r => (encRun s.key (s.v0, s.v1) r).v1,
    rfl, rfl, ?_, teaEnc_eq_encRun .., ?_⟩
  · exact fun r _ => ⟨encRun_succ_v0 .., encRun_succ_v1 ..⟩
  · rw [exec_blkenc, setErr_setBlock, teaEnc_eq_encRun, rounds]

/-- Settles O11: the sequences are V0 and V1 of the working values after each round. -/
theorem blkdecRunsTheRounds : Obligations.BlkdecRunsTheRounds := by
  refine ⟨decode_encode .blkdec, fun s => ?_⟩
  refine ⟨fun r => (decRun s.key (s.v0, s.v1) r).v0, fun r => (decRun s.key (s.v0, s.v1) r).v1,
    rfl, rfl, ?_, teaDec_eq_decRun .., ?_⟩
  · exact fun r hr => ⟨decRun_succ_v1 _ _ hr.le, decRun_succ_v0 _ _ hr.le⟩
  · rw [exec_blkdec, setErr_setBlock, teaDec_eq_decRun, rounds]

/-! ### The two halves are inverse -/

/-- TEA_DEC starts from the working values TEA_ENC ends with, and each of its rounds undoes one. -/
@[simp] theorem teaDec_teaEnc (k : Key) (v : Word × Word) : teaDec k (teaEnc k v) = v := by
  have hback : decRun k (teaEnc k v) rounds = ⟨0, v.1, v.2⟩ := by
    rw [decRun, ← encRun_rounds]
    exact Function.LeftInverse.iterate (decRound_encRound k) rounds _
  rw [teaDec_eq_decRun, hback]

/-- TEA_ENC starts from the working values TEA_DEC ends with, and each of its rounds undoes one. -/
@[simp] theorem teaEnc_teaDec (k : Key) (v : Word × Word) : teaEnc k (teaDec k v) = v := by
  have hback : encRun k (teaDec k v) rounds = ⟨dsum0, v.1, v.2⟩ := by
    rw [encRun, ← decRun_rounds]
    exact Function.LeftInverse.iterate (encRound_decRound k) rounds _
  rw [teaEnc_eq_encRun, hback]

/-- The zero block under the zero key. -/
theorem teaEnc_teaEnc_zero_ne : teaEnc ⟨0, 0, 0, 0⟩ (teaEnc ⟨0, 0, 0, 0⟩ (0, 0)) ≠ (0, 0) := by decide +kernel

/-- Were TEA_DEC its own inverse at a pair, TEA_ENC would be too. -/
theorem teaEnc_teaEnc_of_teaDec_teaDec {k : Key} {v : Word × Word} (h : teaDec k (teaDec k v) = v) :
    teaEnc k (teaEnc k v) = v := by
  nth_rw 1 [← h]
  rw [teaEnc_teaDec, teaEnc_teaDec]

/-- Settles O12: the inverse laws, and the zero block under the zero key against both involutions. -/
theorem blockCipherHalvesAreInverse : Obligations.BlockCipherHalvesAreInverse :=
  ⟨fun k v => ⟨teaDec_teaEnc k v, teaEnc_teaDec k v⟩, ⟨_, _, teaEnc_teaEnc_zero_ne⟩,
   ⟨_, _, mt teaEnc_teaEnc_of_teaDec_teaDec teaEnc_teaEnc_zero_ne⟩⟩

/-- A second block command that writes the first pair back leaves only ERR = 0 changed. -/
theorem setBlock_back (s : State) (b : Word × Word) :
    (((s.setBlock b).setErr .ok).setBlock (s.v0, s.v1)).setErr .ok = { s with err := .ok } := rfl

/-- Settles O13: the second command reads the key and the pair that the first one leaves. -/
theorem blkdecUndoesBlkenc : Obligations.BlkdecUndoesBlkenc := by
  refine fun s => ⟨⟨_, exec_blkenc s, ?_⟩, ⟨_, exec_blkdec s, ?_⟩⟩
  · simp [exec_blkdec, setBlock_back]
  · simp [exec_blkenc, setBlock_back]

/-! ### Masking once -/

/-- R111's expression over unbounded integers, as the source writes it. -/
def unboundedMix (v ka kb sum : Nat) : Nat := (v * 2 ^ 4 + ka) ^^^ (v + sum) ^^^ (v / 2 ^ 5 + kb)

/-- The right shift of a word is division of its value: no bit above the word reaches it (R116). -/
theorem ofNat_toNat_div_two_pow (v : Word) (n : Nat) : BitVec.ofNat 32 (v.toNat / 2 ^ n) = v >>> n := by
  apply BitVec.eq_of_toNat_eq
  rw [BitVec.toNat_ushiftRight, Nat.shiftRight_eq_div_pow, BitVec.toNat_ofNat,
    Nat.mod_eq_of_lt ((Nat.div_le_self ..).trans_lt v.isLt)]

theorem ofNat_toNat_mul_two_pow (v : Word) (n : Nat) : BitVec.ofNat 32 (v.toNat * 2 ^ n) = v <<< n := by
  apply BitVec.eq_of_toNat_eq
  rw [BitVec.toNat_shiftLeft, Nat.shiftLeft_eq, BitVec.toNat_ofNat]

/-- The low 32 bits of the unbounded expression are MIX of the words. -/
theorem ofNat_unboundedMix (v ka kb : Word) (sum : Nat) :
    BitVec.ofNat 32 (unboundedMix v.toNat ka.toNat kb.toNat sum) = mix v ka kb (BitVec.ofNat 32 sum) := by
  simp only [unboundedMix, BitVec.ofNat_xor, BitVec.ofNat_add, ofNat_toNat_div_two_pow, ofNat_toNat_mul_two_pow,
    BitVec.ofNat_toNat, BitVec.setWidth_eq, mix]

/-- Settles O14: masking is a homomorphism for the addition and the subtraction, and gives MIX of the added term. -/
theorem maskingOnceGivesTheSameWords : Obligations.MaskingOnceGivesTheSameWords := by
  intro a v ka kb sum
  rw [← ofNat_unboundedMix, ← unboundedMix]
  constructor
  · rw [BitVec.ofNat_add, BitVec.ofNat_toNat, BitVec.setWidth_eq]
  · rw [Int.sub_eq_add_neg, BitVec.ofInt_add, BitVec.ofInt_neg, BitVec.ofInt_natCast, BitVec.ofInt_natCast,
      BitVec.ofNat_toNat, BitVec.setWidth_eq, BitVec.sub_eq_add_neg]

end Sys2Proof.Proofs
end

section
/-! SUPPORT. The statements of spec/41_byte_cipher.md: the index (R130, R131), the closed form (R136) and the two commands
(R139, R140), and the two halves as inverses (R135). -/

namespace Sys2Proof.Proofs

open Sys2Proof.Machine Sys2Proof.Claims

/-! ### What the index selects -/

theorem tableByte_eq_getD (table : Vector Byte 8) (i : Nat) : tableByte table i = table.toList.getD (i % 8) 0 := by
  have hi : i % 8 < table.toList.length := by
    rw [Vector.length_toList]
    exact Nat.mod_lt i (by decide)
  rw [List.getD_eq_getElem _ _ hi, Vector.getElem_toList]
  rfl

theorem keyWord_eq_getD (k : Key) (i : Nat) : k.word i = [k.k0, k.k1, k.k2, k.k3].getD (i % 4) 0 := by
  have hi : i % 4 = 0 ∨ i % 4 = 1 ∨ i % 4 = 2 ∨ i % 4 = 3 := by omega
  rcases hi with h | h | h | h <;> simp [Key.word, h]

theorem tableByte_congr (table : Vector Byte 8) {i j : Nat} (h : i % 8 = j % 8) : tableByte table i = tableByte table j := by
  simp only [tableByte, h]

theorem keyWord_congr (k : Key) {i j : Nat} (h : i % 4 = j % 4) : k.word i = k.word j := by
  simp only [Key.word, h]

theorem mod_two_pow_eq_toNat_extractLsb' (w : Word) (n : Nat) : w.toNat % 2 ^ n = (w.extractLsb' 0 n).toNat := by
  rw [BitVec.extractLsb'_toNat, Nat.shiftRight_zero]

/-- Settles O18: an index selects its table byte by its three low bits and its key word by two of them, and the ciphers read
no more of it. -/
theorem onlyThreeIndexBitsMatter : Obligations.OnlyThreeIndexBitsMatter := by
  constructor
  · intro table k b i j h
    have htable : tableByte table i = tableByte table j := tableByte_congr table h
    have hkey : k.word i = k.word j := keyWord_congr k (by omega)
    exact ⟨htable, hkey, by rw [byteEnc, byteEnc, htable, hkey], by rw [byteDec, byteDec, htable, hkey]⟩
  · exact fun i => ⟨mod_two_pow_eq_toNat_extractLsb' i 3, mod_two_pow_eq_toNat_extractLsb' i 2⟩

/-! ### The closed form -/

/-- `q3` of the table byte and the key word that the index selects. -/
def selectedQ3 (table : Vector Byte 8) (k : Key) (i : Nat) : Nat := q3 (tableByte table i).toNat (k.word i).toNat

/-- The three low bits of QSTEP come from those of its four operands (R136). -/
theorem qstep_mod_eight (m : Byte) (k : Word) : qstep m k % 8 = q3 m.toNat k.toNat := by
  have hleft : (4 * m.toNat + k.toNat) % 2 ^ 3 = (4 * (m.toNat % 2) + k.toNat % 8) % 8 := by omega
  have hright : (m.toNat / 8 + k.toNat) % 2 ^ 3 = (m.toNat / 8 % 8 + k.toNat % 8) % 8 := by omega
  calc qstep m k % 8
      = (4 * m.toNat + k.toNat) % 2 ^ 3 ^^^ (m.toNat / 8 + k.toNat) % 2 ^ 3 := Nat.xor_mod_two_pow (n := 3)
    _ = q3 m.toNat k.toNat := by rw [hleft, hright, q3]

theorem selectedQ3_eq_mod (table : Vector Byte 8) (k : Key) (i : Nat) :
    selectedQ3 table k i = qstep (tableByte table i) (k.word i) % 8 := (qstep_mod_eight _ _).symm

theorem selectedQ3_lt (table : Vector Byte 8) (k : Key) (i : Nat) : selectedQ3 table k i < 8 := by
  rw [selectedQ3_eq_mod]
  exact Nat.mod_lt _ (by decide)

/-- 32 times a number modulo 256 needs only its three low bits. -/
theorem ofNat_byteRounds_mul (q : Nat) : BitVec.ofNat 8 (byteRounds * q) = BitVec.ofNat 8 (32 * (q % 8)) := by
  apply BitVec.eq_of_toNat_eq
  rw [BitVec.toNat_ofNat, BitVec.toNat_ofNat, byteRounds]
  omega

theorem byteEnc_eq_add (table : Vector Byte 8) (k : Key) (b : Byte) (i : Nat) :
    byteEnc table k b i = b + BitVec.ofNat 8 (32 * selectedQ3 table k i) := by
  rw [byteEnc, iterate_byteEncStep, ofNat_byteRounds_mul, selectedQ3_eq_mod]

theorem byteDec_eq_sub (table : Vector Byte 8) (k : Key) (c : Byte) (i : Nat) :
    byteDec table k c i = c - BitVec.ofNat 8 (32 * selectedQ3 table k i) := by
  rw [byteDec, iterate_byteDecStep, ofNat_byteRounds_mul, selectedQ3_eq_mod]

theorem byteEnc_eq_ofNat (table : Vector Byte 8) (k : Key) (b : Byte) (i : Nat) :
    byteEnc table k b i = BitVec.ofNat 8 (b.toNat + 32 * selectedQ3 table k i) := by
  rw [byteEnc_eq_add, BitVec.ofNat_add, BitVec.ofNat_toNat, BitVec.setWidth_eq]

/-- Subtracting a byte is adding what it lacks to 256; 32 times `q3` is below that. -/
theorem byteDec_eq_ofNat (table : Vector Byte 8) (k : Key) (c : Byte) (i : Nat) :
    byteDec table k c i = BitVec.ofNat 8 (c.toNat + (256 - 32 * selectedQ3 table k i)) := by
  have hlt : selectedQ3 table k i < 8 := selectedQ3_lt table k i
  rw [byteDec_eq_sub]
  bv_omega

/-! ### The two commands -/

theorem exec_bytenc (s : State) :
    exec .bytenc s = .next ((s.setByte (byteEnc s.params.table s.key s.sbyte s.idx.toNat)).setErr .ok) := by
  rw [exec, execBytenc]

theorem exec_bytdec (s : State) :
    exec .bytdec s = .next ((s.setByte (byteDec s.params.table s.key s.sbyte s.idx.toNat)).setErr .ok) := by
  rw [exec, execBytdec]

/-- The end of a byte command writes SBYTE and ERR (R139, R140). -/
theorem setErr_setByte (s : State) (b : Byte) : (s.setByte b).setErr .ok = { s with sbyte := b, err := .ok } := rfl

/-- Settles O15: the closed form of both functions, in the bytes and words the index selects, and what the commands write. -/
theorem byteCommandsAddAndSubtractThirtyTwoTimesQ3 : Obligations.ByteCommandsAddAndSubtractThirtyTwoTimesQ3 := by
  refine ⟨decode_encode .bytenc, decode_encode .bytdec, fun s => ?_⟩
  rw [← tableByte_eq_getD, ← keyWord_eq_getD, ← selectedQ3]
  refine ⟨byteEnc_eq_ofNat .., byteDec_eq_ofNat .., ?_, ?_⟩
  · rw [exec_bytenc, setErr_setByte, byteEnc_eq_ofNat]
  · rw [exec_bytdec, setErr_setByte, byteDec_eq_ofNat]

/-! ### The two halves are inverse -/

@[simp] theorem byteDec_byteEnc (table : Vector Byte 8) (k : Key) (b : Byte) (i : Nat) :
    byteDec table k (byteEnc table k b i) i = b := by
  rw [byteDec_eq_sub, byteEnc_eq_add, BitVec.add_sub_cancel]

@[simp] theorem byteEnc_byteDec (table : Vector Byte 8) (k : Key) (c : Byte) (i : Nat) :
    byteEnc table k (byteDec table k c i) i = c := by
  rw [byteEnc_eq_add, byteDec_eq_sub, BitVec.sub_add_cancel]

/-- A table of eights with key words 0 and 1: `q3` is 1 at index 0 and 3 at index 1. -/
theorem byteDec_byteEnc_other_index_ne :
    byteDec (.replicate 8 8) ⟨0, 1, 0, 0⟩ (byteEnc (.replicate 8 8) ⟨0, 1, 0, 0⟩ 0 0) 1 ≠ 0 := by
  rw [byteDec_eq_sub, byteEnc_eq_add]
  decide

/-- A table of eights: `q3` is 1 under the key word 0 and 3 under the key word 1. -/
theorem byteDec_byteEnc_other_key_ne :
    byteDec (.replicate 8 8) ⟨1, 0, 0, 0⟩ (byteEnc (.replicate 8 8) ⟨0, 0, 0, 0⟩ 0 0) 0 ≠ 0 := by
  rw [byteDec_eq_sub, byteEnc_eq_add]
  decide

/-- Settles O16: the inverse laws, and a byte that another index and another key do not give back. -/
theorem byteCipherHalvesAreInverse : Obligations.ByteCipherHalvesAreInverse :=
  ⟨fun table k b i => ⟨byteDec_byteEnc table k b i, byteEnc_byteDec table k b i⟩,
   ⟨_, _, _, _, _, byteDec_byteEnc_other_index_ne⟩, ⟨_, _, _, _, _, byteDec_byteEnc_other_key_ne⟩⟩

/-- A second byte command that writes the first byte back leaves only ERR = 0 changed. -/
theorem setByte_back (s : State) (b : Byte) :
    (((s.setByte b).setErr .ok).setByte s.sbyte).setErr .ok = { s with err := .ok } := rfl

/-- Settles O17: the second command reads the table, the key, the index and the byte that the first one leaves. -/
theorem bytdecUndoesBytenc : Obligations.BytdecUndoesBytenc := by
  refine fun s => ⟨⟨_, exec_bytenc s, ?_⟩, ⟨_, exec_bytdec s, ?_⟩⟩
  · simp [exec_bytdec, setByte_back]
  · simp [exec_bytenc, setByte_back]

end Sys2Proof.Proofs
end

section
/-! SUPPORT. The statements of spec/42_base64.md: the alphabet (R150), the two halves as exact partial inverses (R155), the
length (R152) and the bits (R151) of the text, the texts that do not decode (R154), and the two commands (R160, R161). -/

namespace Sys2Proof.Proofs

open Sys2Proof.Machine Sys2Proof.Claims

/-! ### The alphabet -/

theorem b64Val_eq_some_iff {c : Byte} {x : BitVec 6} : b64Val c = some x ↔ b64Char x = c := by
  constructor
  · exact b64Char_of_b64Val
  · rintro rfl
    exact b64Val_b64Char x

@[simp] theorem b64Char_inj {x y : BitVec 6} : b64Char x = b64Char y ↔ x = y := by
  rw [← b64Val_eq_some_iff, b64Val_b64Char, Option.some_inj, eq_comm]

@[simp] theorem b64Char_ne_b64Pad (x : BitVec 6) : b64Char x ≠ b64Pad := by
  intro h
  have hval : b64Val b64Pad = some x := b64Val_eq_some_iff.mpr h
  rw [b64Val_b64Pad] at hval
  cases hval

@[simp] theorem b64Pad_ne_b64Char (x : BitVec 6) : b64Pad ≠ b64Char x := (b64Char_ne_b64Pad x).symm

/-- The rows of R150, in the order of the tests of B64CHAR. -/
theorem b64Char_rows (x : BitVec 6) :
    (x.toNat ≤ 25 → (b64Char x).toNat = 0x41 + x.toNat) ∧
    (26 ≤ x.toNat → x.toNat ≤ 51 → (b64Char x).toNat = 0x61 + (x.toNat - 26)) ∧
    (52 ≤ x.toNat → x.toNat ≤ 61 → (b64Char x).toNat = 0x30 + (x.toNat - 52)) ∧
    (x.toNat = 62 → b64Char x = 0x2B) ∧ (x.toNat = 63 → b64Char x = 0x2F) := by
  unfold b64Char
  refine ⟨fun hx => ?_, fun hlo hhi => ?_, fun hlo hhi => ?_, fun hx => ?_, fun hx => ?_⟩
  · rw [if_pos (by omega)]
    bv_omega
  · rw [if_neg (by omega), if_pos (by omega)]
    bv_omega
  · rw [if_neg (by omega), if_neg (by omega), if_pos (by omega)]
    bv_omega
  · simp [hx]
  · simp [hx]

/-- Settles O21: the rows of the table, the laws of the alphabet, and the six bytes outside it. -/
theorem base64AlphabetAndItsInverse : Obligations.Base64AlphabetAndItsInverse :=
  ⟨b64Char_rows, fun _ _ => b64Val_eq_some_iff, by decide⟩

/-! ### One group -/

section
variable {x0 x1 x2 x3 : BitVec 6}

/-- Three bytes put together again are the 24 bits they are cut from, whose digits are the four (R151). -/
theorem b64Enc_of_four_digits : b64Enc [(x0 ++ x1 ++ x2 ++ x3).extractLsb' 16 8, (x0 ++ x1 ++ x2 ++ x3).extractLsb' 8 8,
    (x0 ++ x1 ++ x2 ++ x3).extractLsb' 0 8] = [b64Char x0, b64Char x1, b64Char x2, b64Char x3] := by
  simp only [b64Enc, BitVec.extractLsb'_append_extractLsb'_eq_extractLsb', BitVec.extractLsb'_eq_self]
  simp only [BitVec.extractLsb'_append_eq_of_le, BitVec.extractLsb'_append_eq_right, BitVec.extractLsb'_eq_self,
    Nat.reduceLeDiff, Nat.reduceSub]

/-- Two bytes and two zero bits are the 18 bits of three digits when the low two are zero. -/
theorem b64Enc_of_three_digits (h : (x0 ++ x1 ++ x2).extractLsb' 0 2 = 0) :
    b64Enc [(x0 ++ x1 ++ x2).extractLsb' 10 8, (x0 ++ x1 ++ x2).extractLsb' 2 8] =
      [b64Char x0, b64Char x1, b64Char x2, b64Pad] := by
  rw [b64Enc, ← h]
  simp only [BitVec.extractLsb'_append_extractLsb'_eq_extractLsb', BitVec.extractLsb'_eq_self]
  simp only [BitVec.extractLsb'_append_eq_of_le, BitVec.extractLsb'_append_eq_right, BitVec.extractLsb'_eq_self,
    Nat.reduceLeDiff, Nat.reduceSub]

/-- A byte and four zero bits are the 12 bits of two digits when the low four are zero. -/
theorem b64Enc_of_two_digits (h : (x0 ++ x1).extractLsb' 0 4 = 0) :
    b64Enc [(x0 ++ x1).extractLsb' 4 8] = [b64Char x0, b64Char x1, b64Pad, b64Pad] := by
  rw [b64Enc, ← h]
  simp only [BitVec.extractLsb'_append_extractLsb'_eq_extractLsb', BitVec.extractLsb'_eq_self]
  simp only [BitVec.extractLsb'_append_eq_of_le, BitVec.extractLsb'_append_eq_right, BitVec.extractLsb'_eq_self,
    Nat.reduceLeDiff, Nat.reduceSub]

end

/-- A group that decodes is the text of its bytes; fewer than three come from the last group only. -/
theorem b64Enc_of_b64Group {last : Bool} {c0 c1 c2 c3 : Byte} {d : List Byte} (h : b64Group last c0 c1 c2 c3 = some d) :
    b64Enc d = [c0, c1, c2, c3] ∧ (last = true ∨ d.length = 3) := by
  unfold b64Group at h
  split at h
  case h_1 h0 h1 h2 h3 =>
    cases h
    rw [← b64Char_of_b64Val h0, ← b64Char_of_b64Val h1, ← b64Char_of_b64Val h2, ← b64Char_of_b64Val h3]
    exact ⟨b64Enc_of_four_digits, .inr rfl⟩
  case h_2 h0 h1 h2 _ =>
    obtain ⟨⟨hlast, rfl, hlow⟩, hd⟩ := Option.ite_none_right_eq_some.mp h
    cases hd
    rw [← b64Char_of_b64Val h0, ← b64Char_of_b64Val h1, ← b64Char_of_b64Val h2]
    exact ⟨b64Enc_of_three_digits hlow, .inl hlast⟩
  case h_3 h0 h1 _ _ =>
    obtain ⟨⟨hlast, rfl, rfl, hlow⟩, hd⟩ := Option.ite_none_right_eq_some.mp h
    cases hd
    rw [← b64Char_of_b64Val h0, ← b64Char_of_b64Val h1]
    exact ⟨b64Enc_of_two_digits hlow, .inl hlast⟩
  case h_4 => cases h

/-- A group that is the text of its bytes gives them back. -/
theorem b64Group_of_three (last : Bool) (d0 d1 d2 : Byte) :
    b64Group last (b64Char ((d0 ++ d1 ++ d2).extractLsb' 18 6)) (b64Char ((d0 ++ d1 ++ d2).extractLsb' 12 6))
      (b64Char ((d0 ++ d1 ++ d2).extractLsb' 6 6)) (b64Char ((d0 ++ d1 ++ d2).extractLsb' 0 6)) = some [d0, d1, d2] := by
  simp only [b64Group, b64Val_b64Char, BitVec.extractLsb'_append_extractLsb'_eq_extractLsb', BitVec.extractLsb'_eq_self]
  simp only [BitVec.extractLsb'_append_eq_of_le, BitVec.extractLsb'_append_eq_right, BitVec.extractLsb'_eq_self,
    Nat.reduceLeDiff, Nat.reduceSub]

/-- The two bits after two bytes are zero, as the last group must have them. -/
theorem b64Group_of_two (d0 d1 : Byte) :
    b64Group true (b64Char ((d0 ++ d1 ++ 0#2).extractLsb' 12 6)) (b64Char ((d0 ++ d1 ++ 0#2).extractLsb' 6 6))
      (b64Char ((d0 ++ d1 ++ 0#2).extractLsb' 0 6)) b64Pad = some [d0, d1] := by
  simp only [b64Group, b64Val_b64Char, b64Val_b64Pad, BitVec.extractLsb'_append_extractLsb'_eq_extractLsb',
    BitVec.extractLsb'_eq_self]
  simp only [BitVec.extractLsb'_append_eq_of_le, BitVec.extractLsb'_append_eq_right, BitVec.extractLsb'_eq_self,
    Nat.reduceLeDiff, Nat.reduceSub]
  exact if_pos ⟨trivial, trivial, rfl⟩

/-- The four bits after one byte are zero, as the last group must have them. -/
theorem b64Group_of_one (d0 : Byte) :
    b64Group true (b64Char ((d0 ++ 0#4).extractLsb' 6 6)) (b64Char ((d0 ++ 0#4).extractLsb' 0 6)) b64Pad b64Pad = some [d0] := by
  simp only [b64Group, b64Val_b64Char, b64Val_b64Pad, BitVec.extractLsb'_append_extractLsb'_eq_extractLsb',
    BitVec.extractLsb'_eq_self]
  simp only [BitVec.extractLsb'_append_eq_of_le, BitVec.extractLsb'_append_eq_right, BitVec.extractLsb'_eq_self,
    Nat.reduceLeDiff, Nat.reduceSub]
  exact if_pos ⟨trivial, trivial, trivial, rfl⟩

/-! ### Exact partial inverses -/

theorem b64Groups_b64Enc (d : List Byte) : b64Groups (b64Enc d) = some d := by
  induction d using b64Enc.induct with
  | case1 d0 d1 d2 rest ih => exact b64Groups_cons_eq_some.mpr ⟨_, _, b64Group_of_three _ d0 d1 d2, ih, rfl⟩
  | case2 d0 d1 => exact b64Groups_cons_eq_some.mpr ⟨_, _, b64Group_of_two d0 d1, rfl, rfl⟩
  | case3 d0 => exact b64Groups_cons_eq_some.mpr ⟨_, _, b64Group_of_one d0, rfl, rfl⟩
  | case4 => rfl

/-- The text of three bytes and more is that of the three, then that of the rest (R151). -/
theorem b64Enc_append {d e : List Byte} (h : d.length = 3) : b64Enc (d ++ e) = b64Enc d ++ b64Enc e := by
  obtain ⟨d0, d1, d2, rfl⟩ := List.length_eq_three.mp h
  rfl

theorem b64Enc_of_b64Groups {t d : List Byte} (h : b64Groups t = some d) : b64Enc d = t := by
  induction t using b64Groups.induct generalizing d with
  | case1 => cases h; rfl
  | case2 c0 c1 c2 c3 rest _ _ _ _ ih | case3 c0 c1 c2 c3 rest _ ih =>
    obtain ⟨d1, d2, hgroup, hrest, rfl⟩ := b64Groups_cons_eq_some.mp h
    obtain ⟨htext, hlast | hthree⟩ := b64Enc_of_b64Group hgroup
    · obtain rfl := List.isEmpty_iff.mp hlast
      cases hrest
      rw [List.append_nil, htext]
    · rw [b64Enc_append hthree, htext, ih hrest]
      rfl
  | case4 t => simp [b64Groups] at h

/-- A text decodes to the bytes that it is the text of. -/
theorem b64Dec_eq_some_iff_b64Enc_eq {t d : List Byte} : b64Dec t = some d ↔ b64Enc d = t := by
  rw [b64Dec_eq_some]
  constructor
  · exact fun h => b64Enc_of_b64Groups h.2
  · rintro rfl
    have hlength := length_b64Enc d
    exact ⟨by omega, b64Groups_b64Enc d⟩

@[simp] theorem b64Dec_b64Enc (d : List Byte) : b64Dec (b64Enc d) = some d := b64Dec_eq_some_iff_b64Enc_eq.mpr rfl

theorem b64Enc_injective : Function.Injective b64Enc := fun d e h =>
  Option.some.inj (by rw [← b64Dec_b64Enc d, h, b64Dec_b64Enc])

/-- Settles O24: decoding to `d` and being the text of `d` are one. -/
theorem base64HalvesAreExactPartialInverses : Obligations.Base64HalvesAreExactPartialInverses :=
  ⟨b64Dec_b64Enc, fun _ _ => b64Dec_eq_some_iff_b64Enc_eq.mp, fun _ _ h => b64Enc_injective h,
   fun _ => exists_congr fun _ => b64Dec_eq_some_iff_b64Enc_eq⟩

/-! ### The text -/

/-- Settles O23: the length is four times the number of groups. -/
theorem base64TextLength : Obligations.Base64TextLength :=
  ⟨fun d => ⟨length_b64Enc d, by rw [length_b64Enc, Nat.mul_mod_right]⟩, rfl⟩

/-- Bit `k` of the data, the first byte first and each from its most significant bit on; past the data it is zero. -/
def dataBit (d : List Byte) (k : Nat) : Bool := (d.getD (k / 8) 0).getMsbD (k % 8)

theorem dataBit_of_getElem? {d : List Byte} {j i : Nat} {b : Byte} (hb : d[j]? = some b) (hi : i < 8) :
    dataBit d (8 * j + i) = b.getLsbD (7 - i) := by
  have hj : (8 * j + i) / 8 = j := by omega
  have hbit : (8 * j + i) % 8 = i := by omega
  simp [dataBit, hj, hbit, hb, BitVec.getMsbD, hi]

theorem dataBit_of_length_le {d : List Byte} {k : Nat} (h : 8 * d.length ≤ k) : dataBit d k = false := by
  rw [dataBit, List.getD_eq_default _ _ (by omega)]
  exact BitVec.getMsbD_zero

theorem dataBit_nil (k : Nat) : dataBit [] k = false := dataBit_of_length_le (Nat.zero_le k)

theorem dataBit_cons (b : Byte) (d : List Byte) (k : Nat) :
    dataBit (b :: d) k = if 8 ≤ k then dataBit d (k - 8) else b.getMsbD k := by
  split
  case isTrue h =>
    obtain ⟨k, rfl⟩ := Nat.exists_eq_add_of_le' h
    simp [dataBit]
  case isFalse h =>
    rw [dataBit, Nat.div_eq_of_lt (by omega), Nat.mod_eq_of_lt (by omega), List.getD_cons_zero]

theorem dataBit_three_cons (d0 d1 d2 : Byte) (rest : List Byte) (k : Nat) :
    dataBit (d0 :: d1 :: d2 :: rest) (k + 24) = dataBit rest k := by
  rw [dataBit, show (k + 24) / 8 = k / 8 + 3 by omega, show (k + 24) % 8 = k % 8 by omega]
  rfl

/-- On both sides the comparison of `k` with 8 and 16 selects the byte. -/
theorem getMsbD_three_bytes (d0 d1 d2 : Byte) (rest : List Byte) {k : Nat} (hk : k < 24) :
    (d0 ++ d1 ++ d2).getMsbD k = dataBit (d0 :: d1 :: d2 :: rest) k := by
  simp only [BitVec.getMsbD_append, dataBit_cons]
  grind

/-- After two bytes come zero bits, and the data too has zero past its end. -/
theorem getMsbD_two_bytes (d0 d1 : Byte) (k : Nat) : (d0 ++ d1 ++ 0#2).getMsbD k = dataBit [d0, d1] k := by
  simp only [BitVec.getMsbD_append, dataBit_cons, dataBit_nil, BitVec.getMsbD_zero]
  grind

theorem getMsbD_one_byte (d0 : Byte) (k : Nat) : (d0 ++ 0#4).getMsbD k = dataBit [d0] k := by
  simp only [BitVec.getMsbD_append, dataBit_cons, dataBit_nil, BitVec.getMsbD_zero]

/-- Digit `m` of a word of 6-bit digits, the first most significant, holds the bits from `6m` on. -/
theorem getMsbD_digit {n s m i : Nat} (t : BitVec n) (hs : s + 6 * (m + 1) = n) (hi : i < 6) :
    (t.extractLsb' s 6).getMsbD i = t.getMsbD (6 * m + i) := by
  have hlow : 6 - 1 - i < 6 := by omega
  have hbit : 6 * m + i < n := by omega
  have hsame : s + (6 - 1 - i) = n - 1 - (6 * m + i) := by omega
  rw [BitVec.getMsbD, BitVec.getMsbD, BitVec.getLsbD_extractLsb', decide_eq_true hi, decide_eq_true hlow, decide_eq_true hbit,
    hsame, Bool.true_and]

theorem getElem?_b64Enc_three (d0 d1 d2 : Byte) (rest : List Byte) {m : Nat} (hm : m < 4) :
    (b64Enc (d0 :: d1 :: d2 :: rest))[m]? = some (b64Char ((d0 ++ d1 ++ d2).extractLsb' (18 - 6 * m) 6)) := by
  interval_cases m <;> rfl

theorem getElem?_b64Enc_two (d0 d1 : Byte) {m : Nat} (hm : m < 3) :
    (b64Enc [d0, d1])[m]? = some (b64Char ((d0 ++ d1 ++ 0#2).extractLsb' (12 - 6 * m) 6)) := by
  interval_cases m <;> rfl

theorem getElem?_b64Enc_one (d0 : Byte) {m : Nat} (hm : m < 2) :
    (b64Enc [d0])[m]? = some (b64Char ((d0 ++ 0#4).extractLsb' (6 - 6 * m) 6)) := by
  interval_cases m <;> rfl

/-- Every character that begins before the end of the data is a digit of six bits of it (R151). -/
theorem b64Enc_digit (d : List Byte) {m : Nat} (hm : 6 * m < 8 * d.length) :
    ∃ x, (b64Enc d)[m]? = some (b64Char x) ∧ ∀ i < 6, x.getMsbD i = dataBit d (6 * m + i) := by
  induction d using b64Enc.induct generalizing m with
  | case1 d0 d1 d2 rest ih =>
    rcases Nat.lt_or_ge m 4 with hfour | hfour
    · refine ⟨_, getElem?_b64Enc_three d0 d1 d2 rest hfour, fun i hi => ?_⟩
      rw [getMsbD_digit (m := m) _ (by omega) hi, getMsbD_three_bytes _ _ _ rest (by omega)]
    · obtain ⟨m, rfl⟩ := Nat.exists_eq_add_of_le' hfour
      simp only [List.length_cons] at hm
      obtain ⟨x, hx, hbits⟩ := ih (m := m) (by omega)
      refine ⟨x, hx, fun i hi => ?_⟩
      rw [hbits i hi, ← dataBit_three_cons, show 6 * (m + 4) + i = 6 * m + i + 24 by omega]
  | case2 d0 d1 =>
    have hthree : m < 3 := by simp only [List.length_cons, List.length_nil] at hm; omega
    refine ⟨_, getElem?_b64Enc_two d0 d1 hthree, fun i hi => ?_⟩
    rw [getMsbD_digit (m := m) _ (by omega) hi, getMsbD_two_bytes]
  | case3 d0 =>
    have htwo : m < 2 := by simp only [List.length_cons, List.length_nil] at hm; omega
    refine ⟨_, getElem?_b64Enc_one d0 htwo, fun i hi => ?_⟩
    rw [getMsbD_digit (m := m) _ (by omega) hi, getMsbD_one_byte]
  | case4 => cases hm

/-- Every character that begins at the end of the data or after it is a pad. -/
theorem b64Enc_pad (d : List Byte) {j : Nat} (hlo : 8 * d.length ≤ 6 * j) (hhi : j < (b64Enc d).length) :
    (b64Enc d)[j]? = some b64Pad := by
  induction d using b64Enc.induct generalizing j with
  | case1 d0 d1 d2 rest ih =>
    simp only [List.length_cons, b64Enc] at hlo hhi
    obtain ⟨j, rfl⟩ := Nat.exists_eq_add_of_le' (show 4 ≤ j by omega)
    exact ih (by omega) (by omega)
  | case2 d0 d1 =>
    obtain rfl : j = 3 := by simp only [List.length_cons, List.length_nil, b64Enc] at hlo hhi; omega
    rfl
  | case3 d0 =>
    obtain rfl | rfl : j = 2 ∨ j = 3 := by simp only [List.length_cons, List.length_nil, b64Enc] at hlo hhi; omega
    · rfl
    · rfl
  | case4 => cases hhi

theorem getLsbD_five_sub {x : BitVec 6} {i : Nat} (hi : i < 6) : x.getLsbD (5 - i) = x.getMsbD i := by
  simp [BitVec.getMsbD, hi]

/-- Settles O22: a data bit stands in its digit, a bit after the data is zero, and what begins after the data is a pad. -/
theorem base64TextCarriesTheBitsInOrder : Obligations.Base64TextCarriesTheBitsInOrder := by
  refine fun d => ⟨fun j b hb i hi => ?_, fun i hi x hx hend hopen => ?_, fun j hlo => b64Enc_pad d (by omega)⟩
  · have hj : j < d.length := (List.getElem?_eq_some_iff.mp hb).1
    have hdigit : (8 * j + i) % 6 < 6 := Nat.mod_lt _ (by decide)
    obtain ⟨x, hx, hbits⟩ := b64Enc_digit d (m := (8 * j + i) / 6) (by omega)
    refine ⟨x, hx, ?_⟩
    rw [getLsbD_five_sub hdigit, hbits _ hdigit, Nat.div_add_mod, dataBit_of_getElem? hb hi]
  · obtain ⟨y, hy, hbits⟩ := b64Enc_digit d (m := 8 * d.length / 6) (by omega)
    obtain rfl : x = y := b64Char_inj.mp (Option.some.inj (hx.symm.trans hy))
    rw [getLsbD_five_sub hi, hbits i hi, dataBit_of_length_le (by omega)]

/-! ### The texts that do not decode -/

/-- What can be wrong with the pads at the end of a text, and with the digit before them (R154). -/
def BadEnding (t : List Byte) : Prop :=
  (t[t.length - 2]? = some b64Pad ∧ t[t.length - 1]? ≠ some b64Pad) ∨
  (∃ x : BitVec 6, t[t.length - 2]? = some (b64Char x) ∧ t[t.length - 1]? = some b64Pad ∧ x.extractLsb' 0 2 ≠ 0) ∨
  (∃ x : BitVec 6, t[t.length - 3]? = some (b64Char x) ∧ t[t.length - 2]? = some b64Pad ∧ x.extractLsb' 0 4 ≠ 0)

/-- What is wrong with a text that does not decode, other than its length: a character without value before the last two, a
foreign one among those, or the ending. -/
def BadText (t : List Byte) : Prop :=
  (∃ c ∈ t.take (t.length - 2), b64Val c = none) ∨ (∃ c ∈ t.drop (t.length - 2), b64Val c = none ∧ c ≠ b64Pad) ∨ BadEnding t

/-- A character without value is foreign or a pad. -/
theorem exists_mem_b64Val_eq_none {l : List Byte} :
    (∃ c ∈ l, b64Val c = none) ↔ (∃ c ∈ l, b64Val c = none ∧ c ≠ b64Pad) ∨ b64Pad ∈ l := by
  constructor
  · rintro ⟨c, hc, hval⟩
    by_cases hpad : c = b64Pad
    · exact .inr (hpad ▸ hc)
    · exact .inl ⟨c, hc, hval, hpad⟩
  · rintro (⟨c, hc, hval, -⟩ | hpad)
    · exact ⟨c, hc, hval⟩
    · exact ⟨_, hpad, b64Val_b64Pad⟩

theorem exists_getElem?_add_lt_iff_mem_take {l : List Byte} {c : Byte} {k : Nat} :
    (∃ j, l[j]? = some c ∧ j + k < l.length) ↔ c ∈ l.take (l.length - k) := by
  simp only [List.mem_iff_getElem?, List.getElem?_take, Option.ite_none_right_eq_some, Nat.lt_sub_iff_add_lt, and_comm]

theorem exists_mem_take_or_mem_drop {l : List Byte} {p : Byte → Prop} (n : Nat) :
    (∃ c ∈ l, p c) ↔ (∃ c ∈ l.take n, p c) ∨ ∃ c ∈ l.drop n, p c := by
  conv_lhs => rw [← List.take_append_drop n l]
  simp only [List.mem_append, or_and_right, exists_or]

/-- The faults in the words of R154: a foreign byte anywhere, a pad before the last two characters, or the ending. -/
theorem badText_iff {t : List Byte} : BadText t ↔
    (∃ c ∈ t, b64Val c = none ∧ c ≠ b64Pad) ∨ (∃ j, t[j]? = some b64Pad ∧ j + 2 < t.length) ∨ BadEnding t := by
  rw [BadText, exists_mem_b64Val_eq_none, exists_getElem?_add_lt_iff_mem_take,
    exists_mem_take_or_mem_drop (l := t) (t.length - 2), or_assoc, or_assoc, or_left_comm (a := b64Pad ∈ _)]

/-- What is wrong with a text of two parts, the second at least one group: a character of the first without value, or what is
wrong with the second. -/
theorem badText_append {g rest : List Byte} (h : 4 ≤ rest.length) :
    BadText (g ++ rest) ↔ (∃ c ∈ g, b64Val c = none) ∨ BadText rest := by
  have hlen {k : Nat} (hk : k ≤ 4) : (g ++ rest).length - k = g.length + (rest.length - k) := by
    rw [List.length_append, Nat.add_sub_assoc (hk.trans h)]
  have hindex (i : Nat) : (g ++ rest)[g.length + i]? = rest[i]? := by
    rw [List.getElem?_append_right (Nat.le_add_right ..), Nat.add_sub_cancel_left]
  have hending : BadEnding (g ++ rest) ↔ BadEnding rest := by
    rw [BadEnding, hlen (by decide), hlen (by decide), hlen (by decide), hindex, hindex, hindex, BadEnding]
  rw [BadText, hending, hlen (by decide), List.take_length_add_append, List.drop_length_add_append, BadText]
  simp only [List.mem_append, or_and_right, exists_or, or_assoc]

/-- A group with more text after it fails exactly when one of its characters has no value. -/
theorem b64Group_false_eq_none {c0 c1 c2 c3 : Byte} :
    b64Group false c0 c1 c2 c3 = none ↔ ∃ c ∈ [c0, c1, c2, c3], b64Val c = none := by
  cases h0 : b64Val c0 with
  | none => simp [b64Group, h0]
  | some x0 =>
    cases h1 : b64Val c1 with
    | none => simp [b64Group, h0, h1]
    | some x1 => cases h2 : b64Val c2 <;> cases h3 : b64Val c3 <;> simp [b64Group, h0, h1, h2, h3]

/-- The two unused bits are the low ones of the last digit. -/
theorem b64Group_three_digits {x0 x1 x2 : BitVec 6} {c3 : Byte} (h3 : b64Val c3 = none) :
    b64Group true (b64Char x0) (b64Char x1) (b64Char x2) c3 = none ↔ ¬ (c3 = b64Pad ∧ x2.extractLsb' 0 2 = 0) := by
  have hlow : (x0 ++ x1 ++ x2).extractLsb' 0 2 = x2.extractLsb' 0 2 := BitVec.extractLsb'_append_eq_of_add_le (by decide)
  simp [b64Group, h3, hlow]

/-- The four unused bits are the low ones of the last digit. -/
theorem b64Group_two_digits {x0 x1 : BitVec 6} {c2 c3 : Byte} (h2 : b64Val c2 = none) :
    b64Group true (b64Char x0) (b64Char x1) c2 c3 = none ↔ ¬ (c2 = b64Pad ∧ c3 = b64Pad ∧ x1.extractLsb' 0 4 = 0) := by
  have hlow : (x0 ++ x1).extractLsb' 0 4 = x1.extractLsb' 0 4 := BitVec.extractLsb'_append_eq_of_add_le (by decide)
  cases h3 : b64Val c3 with
  | none => simp [b64Group, h2, h3, hlow]
  | some x3 =>
    obtain rfl := b64Val_eq_some_iff.mp h3
    simp [b64Group, h2]

/-- The faults of a text of one group, character by character. -/
theorem badText_group {c0 c1 c2 c3 : Byte} : BadText [c0, c1, c2, c3] ↔
    (b64Val c0 = none ∨ b64Val c1 = none) ∨ (b64Val c2 = none ∧ c2 ≠ b64Pad ∨ b64Val c3 = none ∧ c3 ≠ b64Pad) ∨
    (c2 = b64Pad ∧ c3 ≠ b64Pad) ∨ (∃ x, c2 = b64Char x ∧ c3 = b64Pad ∧ x.extractLsb' 0 2 ≠ 0) ∨
    (∃ x, c1 = b64Char x ∧ c2 = b64Pad ∧ x.extractLsb' 0 4 ≠ 0) := by
  simp [BadText, BadEnding]

/-- The last group fails exactly on the faults of R154. -/
theorem b64Group_true_eq_none {c0 c1 c2 c3 : Byte} : b64Group true c0 c1 c2 c3 = none ↔ BadText [c0, c1, c2, c3] := by
  rw [badText_group]
  cases h0 : b64Val c0 with
  | none => simp [b64Group, h0]
  | some x0 =>
    cases h1 : b64Val c1 with
    | none => simp [b64Group, h0, h1]
    | some x1 =>
      obtain rfl := b64Val_eq_some_iff.mp h0
      obtain rfl := b64Val_eq_some_iff.mp h1
      cases h2 : b64Val c2 with
      | none =>
        rw [b64Group_two_digits h2]
        by_cases hc2 : c2 = b64Pad
        · by_cases hc3 : c3 = b64Pad <;> simp [hc2, hc3]
        · simp [hc2]
      | some x2 =>
        obtain rfl := b64Val_eq_some_iff.mp h2
        cases h3 : b64Val c3 with
        | none =>
          rw [b64Group_three_digits h3]
          by_cases hc3 : c3 = b64Pad <;> simp [hc3]
        | some x3 =>
          obtain rfl := b64Val_eq_some_iff.mp h3
          simp [b64Group]

/-- A text of one group and more fails where its first group or the rest does. -/
theorem b64Groups_cons_eq_none {c0 c1 c2 c3 : Byte} {rest : List Byte} :
    b64Groups (c0 :: c1 :: c2 :: c3 :: rest) = none ↔
      b64Group rest.isEmpty c0 c1 c2 c3 = none ∨ b64Groups rest = none := by
  rw [b64Groups]
  cases b64Group rest.isEmpty c0 c1 c2 c3 <;> cases b64Groups rest <;> simp

theorem badText_nil : ¬ BadText [] := by simp [BadText, BadEnding]

/-- A text of whole groups fails exactly on the faults of R154. -/
theorem b64Groups_eq_none : ∀ {t : List Byte}, t.length % 4 = 0 → (b64Groups t = none ↔ BadText t)
  | [], _ => iff_of_false nofun badText_nil
  | [c0, c1, c2, c3], _ => by
    rw [b64Groups_cons_eq_none, ← b64Group_true_eq_none]
    exact or_iff_left nofun
  | c0 :: c1 :: c2 :: c3 :: c :: cs, h => by
    have hrest : (c :: cs).length % 4 = 0 := by simp only [List.length_cons] at h ⊢; omega
    have hlength : 4 ≤ (c :: cs).length := Nat.le_of_dvd (Nat.succ_pos _) (Nat.dvd_of_mod_eq_zero hrest)
    rw [b64Groups_cons_eq_none, b64Groups_eq_none hrest, List.isEmpty_cons, b64Group_false_eq_none]
    exact (badText_append (g := [c0, c1, c2, c3]) hlength).symm
  | [_], h | [_, _], h | [_, _, _], h => nomatch h

theorem b64Dec_eq_none {t : List Byte} : b64Dec t = none ↔ t.length % 4 ≠ 0 ∨ BadText t := by
  unfold b64Dec
  split
  case isTrue h => exact iff_of_true rfl (.inl h)
  case isFalse h => rw [b64Groups_eq_none (not_not.mp h), or_iff_right h]

/-- The text of `n` bytes has a pad for each byte that its last group lacks. -/
theorem count_b64Pad_b64Enc (d : List Byte) : (b64Enc d).count b64Pad + d.length = 3 * ((d.length + 2) / 3) := by
  induction d using b64Enc.induct with
  | case1 d0 d1 d2 rest ih =>
    simp only [b64Enc, List.count_cons_of_ne (b64Char_ne_b64Pad _), List.length_cons]
    omega
  | case2 d0 d1 => simp [b64Enc]
  | case3 d0 => simp [b64Enc]
  | case4 => simp [b64Enc]

/-- Settles O25: the faults of R154 as `BadText` collects them, and the pads of the text that the decoded bytes encode to. -/
theorem base64DecodingFailsExactlyOnBadTexts : Obligations.Base64DecodingFailsExactlyOnBadTexts := by
  refine ⟨fun t => b64Dec_eq_none.trans (or_congr_right badText_iff), fun t d h => ?_, rfl⟩
  obtain rfl := b64Dec_eq_some_iff_b64Enc_eq.mp h
  have hcount : (b64Enc d).count 0x3D + d.length = 3 * ((d.length + 2) / 3) := count_b64Pad_b64Enc d
  rw [length_b64Enc]
  omega

/-! ### The two commands -/

theorem exec_b64enc (s : State) : exec .b64enc s = .next (bufferCommand s b64EncStage) := by
  rw [exec, execB64enc]

theorem exec_b64dec (s : State) : exec .b64dec s = .next (bufferCommand s b64DecStage) := by
  rw [exec, execB64dec]

/-- A failure is the three writes of R214. -/
theorem failsWith_fail (s : State) (e : ErrCode) : FailsWith s (s.fail e) e := by
  simp [FailsWith, SameOperands]

/-- A result that OUTBUF has room for is delivered whole: its length fits OUTLEN. -/
theorem delivers_deliver {s : State} {d : List Byte} (h : d.length ≤ outCap s.params) : Delivers s (s.deliver d) d := by
  have hcap := outCap_le s.params
  have hlen : d.length < 4294967296 := by omega
  simp [Delivers, SameOperands, hlen]

/-- A buffer command whose input does not fit INBUF fails with ERR_LEN. -/
theorem failsWith_len_of_too_long {s : State} (f : List Byte → Except ErrCode (List Byte))
    (h : inCap s.params < s.inlen.toNat) : FailsWith s (bufferCommand s f) .len := by
  rw [bufferCommand_too_long f h]
  exact failsWith_fail s .len

/-- A buffer command whose stage fails does so with the code of its stage. -/
theorem failsWith_of_stage_error {s : State} {f : List Byte → Except ErrCode (List Byte)} {e : ErrCode}
    (h : s.inlen.toNat ≤ inCap s.params) (hf : f s.input = .error e) : FailsWith s (bufferCommand s f) e := by
  rw [bufferCommand_fits f h, hf]
  exact failsWith_fail s e

/-- A buffer command whose stage succeeds delivers the result of its stage. -/
theorem delivers_of_stage_ok {f : Params → Key → List Byte → Except ErrCode (List Byte)} (hfits : StageFits f) {s : State}
    {d : List Byte} (h : s.inlen.toNat ≤ inCap s.params) (hf : f s.params s.key s.input = .ok d) :
    Delivers s (bufferCommand s (f s.params s.key)) d := by
  rw [bufferCommand_fits _ h, hf]
  exact delivers_deliver (hfits _ _ _ d ((length_input s).trans_le h) hf)

theorem b64DecStage_of_eq_none {t : List Byte} (h : b64Dec t = none) : b64DecStage t = .error .b64 := by
  rw [b64DecStage, h]

theorem b64DecStage_of_eq_some {t d : List Byte} (h : b64Dec t = some d) : b64DecStage t = .ok d := by
  rw [b64DecStage, h]

/-- Settles O26: the stage of B64ENC cannot fail, and OUTLEN is the length of the text. -/
theorem b64encResult : Obligations.B64encResult := by
  refine ⟨decode_encode .b64enc, fun s => ⟨_, exec_b64enc s, failsWith_len_of_too_long _, fun hfits => ?_⟩⟩
  have hdeliver : Delivers s (bufferCommand s b64EncStage) (b64Enc s.input) :=
    delivers_of_stage_ok b64EncStage_fits hfits rfl
  obtain ⟨-, houtlen, -⟩ := id hdeliver
  exact ⟨hdeliver, by rw [houtlen, length_b64Enc, length_input]⟩

/-- Settles O27: the stage of B64DEC fails on the texts that do not decode, those of a wrong length among them. -/
theorem b64decResult : Obligations.B64decResult := by
  refine ⟨decode_encode .b64dec, fun s => ⟨_, exec_b64dec s, failsWith_len_of_too_long _, fun hfits => ?_⟩⟩
  have hbad (hnone : b64Dec s.input = none) : FailsWith s (bufferCommand s b64DecStage) .b64 :=
    failsWith_of_stage_error hfits (b64DecStage_of_eq_none hnone)
  refine ⟨hbad, fun d hd => delivers_of_stage_ok b64DecStage_fits hfits (b64DecStage_of_eq_some hd), fun hmod => hbad ?_⟩
  rw [b64Dec_eq_none, length_input]
  exact .inl hmod

end Sys2Proof.Proofs
end

section
/-! SUPPORT. The statements of spec/43_payload_codec.md: the payload transform chunk by chunk and its remainder (R170 to R175,
R180), well-formed UTF-8 (R176), the codec's round trip (R177 to R179), and the four commands (R183 to R186). -/

namespace Sys2Proof.Proofs

open Sys2Proof.Machine Sys2Proof.Claims

/-! ### One payload transform for both directions -/

/-- The bytes of one chunk, put through the block function `F`: BLK_ENC_BYTES for TEA_ENC, BLK_DEC_BYTES for TEA_DEC (R117). -/
def chunkBytes (F : Word × Word → Word × Word) (b0 b1 b2 b3 b4 b5 b6 b7 : Byte) : List Byte :=
  bytesOfBlock (F (blockOfBytes b0 b1 b2 b3 b4 b5 b6 b7))

theorem length_chunkBytes (F : Word × Word → Word × Word) (b0 b1 b2 b3 b4 b5 b6 b7 : Byte) :
    (chunkBytes F b0 b1 b2 b3 b4 b5 b6 b7).length = 8 := length_bytesOfBlock _

/-- What PLD_ENC and PLD_DEC share (R172, R173): the block function `F` on each whole chunk, the byte function `g` on each
remainder byte under its offset. -/
def transform (F : Word × Word → Word × Word) (g : Byte → Nat → Byte) (p : List Byte) : List Byte :=
  let align := (split p.length).1
  mapChunks (chunkBytes F) (p.take align) ++ mapRemainder g align (p.drop align)

theorem pldEnc_eq_transform (table : Vector Byte 8) (k : Key) : pldEnc table k = transform (teaEnc k) (byteEnc table k) := rfl

theorem pldDec_eq_transform (table : Vector Byte 8) (k : Key) : pldDec table k = transform (teaDec k) (byteDec table k) := rfl

/-- A byte function that reads its index modulo 8 only (R131). -/
def IndexModEight (g : Byte → Nat → Byte) : Prop := ∀ b i j, i % 8 = j % 8 → g b i = g b j

theorem byteEnc_indexModEight (table : Vector Byte 8) (k : Key) : IndexModEight (byteEnc table k) := by
  intro b i j hij
  obtain ⟨-, -, henc, -⟩ := onlyThreeIndexBitsMatter.1 table k b i j hij
  exact henc

theorem byteDec_indexModEight (table : Vector Byte 8) (k : Key) : IndexModEight (byteDec table k) := by
  intro b i j hij
  obtain ⟨-, -, -, hdec⟩ := onlyThreeIndexBitsMatter.1 table k b i j hij
  exact hdec

/-! ### Blocks as bytes -/

theorem bytesOfBlock_blockOfBytes (b0 b1 b2 b3 b4 b5 b6 b7 : Byte) :
    bytesOfBlock (blockOfBytes b0 b1 b2 b3 b4 b5 b6 b7) = [b0, b1, b2, b3, b4, b5, b6, b7] := by
  simp [bytesOfBlock, blockOfBytes]

theorem mapChunks_bytesOfBlock_append (F : Word × Word → Word × Word) (v : Word × Word) (l : List Byte) :
    mapChunks (chunkBytes F) (bytesOfBlock v ++ l) = bytesOfBlock (F v) ++ mapChunks (chunkBytes F) l := by
  simp only [bytesOfBlock, bytes32, List.cons_append, List.nil_append, mapChunks, chunkBytes, blockOfBytes, le32_byteOf]

/-- Eight bytes and more begin with a block (R117). -/
theorem drop_eq_bytesOfBlock_append {p : List Byte} {o : Nat} (h : o + 8 ≤ p.length) :
    p.drop o = bytesOfBlock (blockAt p o) ++ p.drop (o + 8) := by
  have hnext (i : Nat) (hi : o + i < p.length) : p.drop (o + i) = p.getD (o + i) 0 :: p.drop (o + (i + 1)) := by
    rw [List.drop_eq_getElem_cons hi, List.getD_eq_getElem _ _ hi, Nat.add_assoc]
  have hblock : bytesOfBlock (blockAt p o) = [p.getD o 0, p.getD (o + 1) 0, p.getD (o + 2) 0, p.getD (o + 3) 0,
      p.getD (o + 4) 0, p.getD (o + 5) 0, p.getD (o + 6) 0, p.getD (o + 7) 0] := bytesOfBlock_blockOfBytes ..
  rw [hblock, ← Nat.add_zero o, hnext 0 (by omega), hnext 1 (by omega), hnext 2 (by omega), hnext 3 (by omega),
    hnext 4 (by omega), hnext 5 (by omega), hnext 6 (by omega), hnext 7 (by omega)]
  rfl

/-- A payload is a remainder, or a block before a payload: the induction that the transform's proofs follow. -/
theorem payloadInduction {motive : List Byte → Prop} (remainder : ∀ p, p.length < 8 → motive p)
    (chunk : ∀ v p, motive p → motive (bytesOfBlock v ++ p)) (p : List Byte) : motive p := by
  induction hn : p.length using Nat.strong_induction_on generalizing p with
  | _ n ih =>
    by_cases hp : p.length < 8
    · exact remainder p hp
    · have hblock : p = bytesOfBlock (blockAt p 0) ++ p.drop 8 := by
        simpa using drop_eq_bytesOfBlock_append (p := p) (o := 0) (by omega)
      rw [hblock]
      exact chunk _ _ (ih (p.drop 8).length (by rw [List.length_drop]; omega) _ rfl)

/-! ### The remainder -/

theorem mapRemainder_congr {f g : Byte → Nat → Byte} {i j : Nat} {l : List Byte}
    (h : ∀ n, n < l.length → ∀ b, f b (i + n) = g b (j + n)) : mapRemainder f i l = mapRemainder g j l := by
  refine List.ext_getElem? fun n => ?_
  rw [getElem?_mapRemainder, getElem?_mapRemainder]
  by_cases hn : n < l.length
  · simp [hn, h n hn]
  · simp [hn]

/-! ### The transform by chunks -/

section
variable {F : Word × Word → Word × Word} {g : Byte → Nat → Byte}

theorem transform_of_length_lt {p : List Byte} (h : p.length < 8) : transform F g p = mapRemainder g 0 p := by
  have halign : (split p.length).1 = 0 := by simp [split, blockBytes, Nat.div_eq_of_lt h]
  simp [transform, halign, mapChunks]

@[simp] theorem transform_nil : transform F g [] = [] := transform_of_length_lt (by simp)

/-- The first chunk goes through the block function, and the rest is a payload of its own (R180). -/
theorem transform_bytesOfBlock_append (hg : IndexModEight g) (v : Word × Word) (p : List Byte) :
    transform F g (bytesOfBlock v ++ p) = bytesOfBlock (F v) ++ transform F g p := by
  have halign : (split (bytesOfBlock v ++ p).length).1 = 8 + (split p.length).1 := by
    simp only [split, blockBytes, List.length_append, length_bytesOfBlock]
    omega
  have htake (n : Nat) : (bytesOfBlock v ++ p).take (8 + n) = bytesOfBlock v ++ p.take n :=
    List.take_length_add_append (l₁ := bytesOfBlock v) n
  have hdrop (n : Nat) : (bytesOfBlock v ++ p).drop (8 + n) = p.drop n :=
    List.drop_length_add_append (l₁ := bytesOfBlock v) n
  have hremainder : mapRemainder g (8 + (split p.length).1) (p.drop (split p.length).1) =
      mapRemainder g (split p.length).1 (p.drop (split p.length).1) :=
    mapRemainder_congr fun n _ b => hg b _ _ (by omega)
  simp only [transform, halign, htake, hdrop, mapChunks_bytesOfBlock_append, hremainder, List.append_assoc]

theorem transform_append (hg : IndexModEight g) {p : List Byte} (h : p.length % 8 = 0) (q : List Byte) :
    transform F g (p ++ q) = transform F g p ++ transform F g q := by
  induction p using payloadInduction with
  | remainder p hp =>
    obtain rfl : p = [] := List.eq_nil_of_length_eq_zero (by omega)
    simp
  | chunk v p ih =>
    have hp : p.length % 8 = 0 := by simpa using h
    rw [List.append_assoc, transform_bytesOfBlock_append hg, transform_bytesOfBlock_append hg, ih hp, List.append_assoc]

theorem length_transform (p : List Byte) : (transform F g p).length = p.length :=
  length_chunks_append_remainder (length_chunkBytes F) g p

/-- Whole chunks in front are transformed on their own, and so is what comes after them. -/
theorem transform_eq_take_append_drop (hg : IndexModEight g) {p : List Byte} {c : Nat} (hc : 8 * c ≤ p.length) :
    transform F g p = transform F g (p.take (8 * c)) ++ transform F g (p.drop (8 * c)) := by
  rw [← transform_append hg (by rw [List.length_take_of_le hc]; omega), List.take_append_drop]

theorem take_transform (hg : IndexModEight g) {p : List Byte} {c : Nat} (hc : 8 * c ≤ p.length) :
    (transform F g p).take (8 * c) = transform F g (p.take (8 * c)) := by
  rw [transform_eq_take_append_drop hg hc]
  exact List.take_left' (by rw [length_transform, List.length_take_of_le hc])

theorem drop_transform (hg : IndexModEight g) {p : List Byte} {c : Nat} (hc : 8 * c ≤ p.length) :
    (transform F g p).drop (8 * c) = transform F g (p.drop (8 * c)) := by
  rw [transform_eq_take_append_drop hg hc]
  exact List.drop_left' (by rw [length_transform, List.length_take_of_le hc])

/-- A chunk of the result is the transform of that chunk (R180). -/
theorem take_drop_transform (hg : IndexModEight g) {p : List Byte} {c : Nat} (hc : c < p.length / 8) :
    ((transform F g p).drop (8 * c)).take 8 = transform F g ((p.drop (8 * c)).take 8) := by
  rw [drop_transform hg (by omega)]
  exact take_transform (c := 1) hg (by rw [List.length_drop]; omega)

/-- R172 for one chunk. -/
theorem transform_chunk (hg : IndexModEight g) {p : List Byte} {c : Nat} (hc : c < p.length / 8) :
    ((transform F g p).drop (8 * c)).take 8 = bytesOfBlock (F (blockAt p (8 * c))) := by
  rw [drop_transform hg (by omega), drop_eq_bytesOfBlock_append (by omega), transform_bytesOfBlock_append hg]
  exact List.take_left' (length_bytesOfBlock _)

/-- R172 for one remainder byte. -/
theorem getElem?_transform_remainder {p : List Byte} {j : Nat} (hj : 8 * (p.length / 8) ≤ j) :
    (transform F g p)[j]? = p[j]?.map (g · j) := by
  have halign : (split p.length).1 = 8 * (p.length / 8) := rfl
  have hchunks : (mapChunks (chunkBytes F) (p.take (8 * (p.length / 8)))).length = 8 * (p.length / 8) := by
    rw [length_mapChunks (length_chunkBytes F), List.length_take]
    omega
  rw [transform, halign, List.getElem?_append_right (by omega), getElem?_mapRemainder, List.getElem?_drop, hchunks,
    Nat.add_sub_cancel' hj]

/-- A byte changed after whole chunks changes nothing in them (R180). -/
theorem getElem?_transform_set_after (hg : IndexModEight g) {p : List Byte} {c i j : Nat} (b : Byte) (hc : 8 * c ≤ p.length)
    (hi : 8 * c ≤ i) (hj : j < 8 * c) : (transform F g (p.set i b))[j]? = (transform F g p)[j]? := by
  rw [← List.getElem?_take_of_lt hj, take_transform hg (by rwa [List.length_set]), List.take_set_of_le hi,
    ← take_transform hg hc, List.getElem?_take_of_lt hj]

/-- A byte changed in whole chunks changes nothing after them (R180). -/
theorem getElem?_transform_set_within (hg : IndexModEight g) {p : List Byte} {c i j : Nat} (b : Byte) (hc : 8 * c ≤ p.length)
    (hi : i < 8 * c) (hj : 8 * c ≤ j) : (transform F g (p.set i b))[j]? = (transform F g p)[j]? := by
  rw [← Nat.add_sub_cancel' hj, ← List.getElem?_drop, drop_transform hg (by rwa [List.length_set]), List.drop_set_of_lt hi,
    ← drop_transform hg hc, List.getElem?_drop]

/-- A remainder byte changed changes no other byte (R180). -/
theorem getElem?_transform_set_remainder (hg : IndexModEight g) {p : List Byte} {i j : Nat} (b : Byte)
    (hi : 8 * (p.length / 8) ≤ i) (hij : i ≠ j) : (transform F g (p.set i b))[j]? = (transform F g p)[j]? := by
  by_cases hj : j < 8 * (p.length / 8)
  · exact getElem?_transform_set_after hg b (Nat.mul_div_le _ _) hi hj
  · rw [getElem?_transform_remainder (by rw [List.length_set]; omega), getElem?_transform_remainder (by omega),
      List.getElem?_set_ne hij]

/-- Two transforms that undo each other block by block and byte by byte undo each other (R175). -/
theorem transform_transform {F' : Word × Word → Word × Word} {g' : Byte → Nat → Byte} (hg : IndexModEight g)
    (hg' : IndexModEight g') (hF : ∀ v, F' (F v) = v) (hgg : ∀ b i, g' (g b i) i = b) (p : List Byte) :
    transform F' g' (transform F g p) = p := by
  induction p using payloadInduction with
  | remainder p hp =>
    rw [transform_of_length_lt hp, transform_of_length_lt (by rwa [length_mapRemainder])]
    refine List.ext_getElem? fun n => ?_
    simp [getElem?_mapRemainder, Function.comp_def, hgg]
  | chunk v p ih => rw [transform_bytesOfBlock_append hg, transform_bytesOfBlock_append hg', hF, ih]

end

/-- Settles O28: the chunks and the remainder bytes of the shared transform. -/
theorem payloadIsChunksThenRemainder : Obligations.PayloadIsChunksThenRemainder := by
  intro table k p
  refine ⟨length_pldEnc table k p, length_pldDec table k p,
    fun c hc => ⟨transform_chunk (byteEnc_indexModEight table k) hc, transform_chunk (byteDec_indexModEight table k) hc⟩,
    fun j hlo hhi => ?_⟩
  rw [pldEnc_eq_transform, pldDec_eq_transform, getElem?_transform_remainder hlo, getElem?_transform_remainder hlo]
  simp [hhi]

/-- TABLE[7] is used at an index that is 7 modulo 8 only (R130). -/
theorem byteEnc_byteDec_congr_table {table table' : Vector Byte 8} (h : ∀ i, i < 7 → tableByte table i = tableByte table' i)
    (k : Key) (b : Byte) {i : Nat} (hi : i % 8 < 7) :
    byteEnc table k b i = byteEnc table' k b i ∧ byteDec table k b i = byteDec table' k b i := by
  have hentry : tableByte table i = tableByte table' i := by
    rw [tableByte_congr table (Nat.mod_mod i 8).symm, tableByte_congr table' (Nat.mod_mod i 8).symm, h _ hi]
  simp only [byteEnc, byteDec, hentry, and_self]

/-- The remainder offsets are at most 6 modulo 8, so a transform reads its byte function there only. -/
theorem transform_congr {F : Word × Word → Word × Word} {g g' : Byte → Nat → Byte}
    (h : ∀ b i, i % 8 < 7 → g b i = g' b i) : transform F g = transform F g' := by
  funext p
  simp only [transform]
  refine congrArg _ (mapRemainder_congr fun n hn b => h b _ ?_)
  simp only [split, blockBytes, List.length_drop] at hn ⊢
  omega

/-- Settles O29: the byte cipher reads its index modulo 8, and the remainder is shorter than the table. -/
theorem remainderStartsOverAtTableZero : Obligations.RemainderStartsOverAtTableZero := by
  refine ⟨fun table k p i hi => ?_, fun table table' k p h => ⟨?_, ?_⟩⟩
  · obtain ⟨-, -, -, hremainder⟩ := payloadIsChunksThenRemainder table k p
    obtain ⟨henc, -⟩ := hremainder (8 * (p.length / 8) + i) (Nat.le_add_right _ i) (by omega)
    rw [henc, byteEnc_indexModEight table k _ _ i (by omega)]
  · exact congrFun (transform_congr fun b i hi => (byteEnc_byteDec_congr_table h k b hi).1) p
  · exact congrFun (transform_congr fun b i hi => (byteEnc_byteDec_congr_table h k b hi).2) p

theorem pldDec_pldEnc (table : Vector Byte 8) (k : Key) (p : List Byte) : pldDec table k (pldEnc table k p) = p :=
  transform_transform (byteEnc_indexModEight table k) (byteDec_indexModEight table k) (teaDec_teaEnc k)
    (byteDec_byteEnc table k) p

theorem pldEnc_pldDec (table : Vector Byte 8) (k : Key) (p : List Byte) : pldEnc table k (pldDec table k p) = p :=
  transform_transform (byteDec_indexModEight table k) (byteEnc_indexModEight table k) (teaEnc_teaDec k)
    (byteEnc_byteDec table k) p

/-- Settles O30: each half of the block cipher and of the byte cipher undoes the other. -/
theorem payloadRoundTrip : Obligations.PayloadRoundTrip := fun table k p =>
  ⟨pldDec_pldEnc table k p, pldEnc_pldDec table k p⟩

/-- The byte cipher adds a multiple of 32, so it keeps the low five bits (R136). -/
theorem byteEnc_low_five_bits (table : Vector Byte 8) (k : Key) (b : Byte) (i : Nat) :
    (byteEnc table k b i).extractLsb' 0 5 = b.extractLsb' 0 5 := by
  apply BitVec.eq_of_toNat_eq
  rw [byteEnc_eq_ofNat]
  simp

/-- Settles O31: the transform of a part of whole chunks depends on that part only. -/
theorem chunksAreIndependent : Obligations.ChunksAreIndependent := by
  intro table k p
  have hmod := byteEnc_indexModEight table k
  rw [pldEnc_eq_transform]
  refine ⟨fun c c' hc hc' h => ?_, fun c i b j hc hi hj => ?_, fun i b j hi hij => ?_, fun i x y hi hx hy => ?_,
    fun q hp => transform_append hmod hp q, transform_nil⟩
  · rw [take_drop_transform hmod hc, take_drop_transform hmod hc', h]
  · by_cases hbelow : j < 8 * c
    · exact getElem?_transform_set_after hmod b (by omega) (by omega) hbelow
    · exact getElem?_transform_set_within (c := c + 1) hmod b (by omega) (by omega) (by omega)
  · exact getElem?_transform_set_remainder hmod b hi hij
  · rw [getElem?_transform_remainder hi, hx] at hy
    cases hy
    exact byteEnc_low_five_bits table k x i

/-! ### UTF-8 -/

/-- What is left of `d` after one sequence of the table, as the model takes it off. -/
def afterSequence (d : List Byte) : Option (List Byte) := utf8Table.findSome? (matchRow · d)

/-- `d` is a concatenation of sequences of the nine rows (R176). -/
def Utf8Text (d : List Byte) : Prop :=
  ∃ seqs : List (List Byte), seqs.flatten = d ∧ ∀ q ∈ seqs, ∃ row ∈ utf8Rows, InRow row q

theorem matchRow_eq_some_iff {row : Utf8Row} {d rest : List Byte} :
    matchRow row d = some rest ↔ ∃ q, InRow row q ∧ q ++ rest = d := by
  induction row generalizing d with
  | nil => simp [matchRow, InRow, eq_comm]
  | cons r row ih =>
    cases d with
    | nil => simp [matchRow, InRow]
    | cons b d =>
      rw [matchRow, Option.ite_none_right_eq_some, ih]
      constructor
      · rintro ⟨hr, q, hq, rfl⟩
        exact ⟨b :: q, .cons hr hq, rfl⟩
      · rintro ⟨_, _ | ⟨hr, hq⟩, heq⟩
        cases heq
        exact ⟨hr, _, hq, rfl⟩

/-- The range of the first byte of a row's sequences. -/
def firstRange (row : Utf8Row) : Nat × Nat := row.headD (0, 0)

/-- No two rows share a first byte. -/
theorem utf8Rows_firstRange : ∀ row ∈ utf8Rows, ∀ row' ∈ utf8Rows,
    row = row' ∨ (firstRange row).2 < (firstRange row').1 ∨ (firstRange row').2 < (firstRange row).1 := by
  decide

theorem utf8Rows_ne_nil : ∀ row ∈ utf8Rows, row ≠ [] := by decide

/-- A sequence of a row begins with a byte in the row's first range. -/
theorem firstRange_of_matchRow {row : Utf8Row} {b : Byte} {d rest : List Byte} (hrow : row ≠ [])
    (h : matchRow row (b :: d) = some rest) : (firstRange row).1 ≤ b.toNat ∧ b.toNat ≤ (firstRange row).2 := by
  cases row with
  | nil => exact absurd rfl hrow
  | cons r row =>
    obtain ⟨hr, -⟩ := Option.ite_none_right_eq_some.mp h
    exact hr

theorem not_matchRow_nil {row : Utf8Row} (hrow : row ≠ []) (rest : List Byte) : matchRow row [] ≠ some rest := by
  cases row with
  | nil => exact absurd rfl hrow
  | cons r row => simp [matchRow]

theorem matchRow_unique {row row' : Utf8Row} {d rest rest' : List Byte} (hrow : row ∈ utf8Rows) (hrow' : row' ∈ utf8Rows)
    (h : matchRow row d = some rest) (h' : matchRow row' d = some rest') : row = row' := by
  cases d with
  | nil => exact absurd h (not_matchRow_nil (utf8Rows_ne_nil row hrow) rest)
  | cons b d =>
    have hfirst := firstRange_of_matchRow (utf8Rows_ne_nil row hrow) h
    have hfirst' := firstRange_of_matchRow (utf8Rows_ne_nil row' hrow') h'
    rcases utf8Rows_firstRange row hrow row' hrow' with heq | hlt | hlt
    · exact heq
    · omega
    · omega

/-- The first row that matches is the only one. -/
theorem afterSequence_eq_some_iff {d rest : List Byte} :
    afterSequence d = some rest ↔ ∃ row ∈ utf8Rows, ∃ q, InRow row q ∧ q ++ rest = d := by
  simp only [← matchRow_eq_some_iff]
  constructor
  · exact List.exists_of_findSome?_eq_some
  · rintro ⟨row, hrow, hmatch⟩
    have hsome : (afterSequence d).isSome := List.findSome?_isSome_iff.mpr ⟨row, hrow, by rw [hmatch]; rfl⟩
    obtain ⟨rest', hrest'⟩ := Option.isSome_iff_exists.mp hsome
    obtain ⟨row', hrow', hmatch'⟩ := List.exists_of_findSome?_eq_some hrest'
    obtain rfl := matchRow_unique hrow hrow' hmatch hmatch'
    rw [hrest', ← hmatch', hmatch]

/-- A sequence has at least one byte. -/
theorem length_afterSequence_lt {d rest : List Byte} (h : afterSequence d = some rest) : rest.length < d.length := by
  obtain ⟨row, hrow, q, hq, rfl⟩ := afterSequence_eq_some_iff.mp h
  have hlen : row.length = q.length := List.Forall₂.length_eq hq
  have hpos := List.length_pos_of_ne_nil (utf8Rows_ne_nil row hrow)
  rw [List.length_append]
  omega

theorem utf8Text_nil : Utf8Text [] := ⟨[], rfl, nofun⟩

theorem utf8Text_iff_afterSequence {d : List Byte} (hd : d ≠ []) :
    Utf8Text d ↔ ∃ rest, afterSequence d = some rest ∧ Utf8Text rest := by
  simp only [afterSequence_eq_some_iff]
  constructor
  · rintro ⟨seqs, rfl, hseqs⟩
    cases seqs with
    | nil => exact absurd rfl hd
    | cons q seqs =>
      obtain ⟨hq, hrest⟩ := List.forall_mem_cons.mp hseqs
      obtain ⟨row, hrow, hin⟩ := hq
      exact ⟨seqs.flatten, ⟨row, hrow, q, hin, rfl⟩, seqs, rfl, hrest⟩
  · rintro ⟨rest, ⟨row, hrow, q, hin, rfl⟩, seqs, rfl, hseqs⟩
    exact ⟨q :: seqs, rfl, List.forall_mem_cons.mpr ⟨⟨row, hrow, hin⟩, hseqs⟩⟩

theorem utf8From_succ_cons (fuel : Nat) (b : Byte) (d : List Byte) :
    utf8From (fuel + 1) (b :: d) = true ↔ ∃ rest, afterSequence (b :: d) = some rest ∧ utf8From fuel rest = true := by
  rw [utf8From, ← afterSequence]
  cases afterSequence (b :: d) <;> simp

/-- As much fuel as bytes is enough. -/
theorem utf8From_iff_utf8Text {fuel : Nat} {d : List Byte} (h : d.length ≤ fuel) : utf8From fuel d = true ↔ Utf8Text d := by
  induction fuel generalizing d with
  | zero =>
    obtain rfl := List.eq_nil_of_length_eq_zero (Nat.le_zero.mp h)
    simp [utf8From, utf8Text_nil]
  | succ fuel ih =>
    cases d with
    | nil => simp [utf8From, utf8Text_nil]
    | cons b d =>
      rw [utf8From_succ_cons, utf8Text_iff_afterSequence (List.cons_ne_nil b d)]
      refine exists_congr fun rest => and_congr_right fun hrest => ih ?_
      have := length_afterSequence_lt hrest
      omega

theorem utf8Valid_iff_utf8Text {d : List Byte} : utf8Valid d = true ↔ Utf8Text d := utf8From_iff_utf8Text le_rfl

/-- UTF8_VALID without its fuel: a sequence, and a valid rest. -/
theorem utf8Valid_iff_afterSequence {d : List Byte} (hd : d ≠ []) :
    utf8Valid d = true ↔ ∃ rest, afterSequence d = some rest ∧ utf8Valid rest = true := by
  simp only [utf8Valid_iff_utf8Text]
  exact utf8Text_iff_afterSequence hd

/-- The bytes that no range of any row holds. -/
theorem utf8Rows_ranges : ∀ row ∈ utf8Rows, ∀ r ∈ row, (0xC1 < r.1 ∨ r.2 < 0xC0) ∧ r.2 < 0xF5 := by decide

theorem mem_range_of_inRow {row : List (Nat × Nat)} {q : List Byte} {b : Byte} (h : InRow row q) (hb : b ∈ q) :
    ∃ r ∈ row, r.1 ≤ b.toNat ∧ b.toNat ≤ r.2 := by
  induction h with
  | nil => cases hb
  | cons hr _ ih =>
    rcases List.mem_cons.mp hb with rfl | hb
    · exact ⟨_, List.mem_cons_self, hr⟩
    · obtain ⟨r, hr, hrange⟩ := ih hb
      exact ⟨r, List.mem_cons_of_mem _ hr, hrange⟩

theorem utf8Valid_byte {d : List Byte} (h : utf8Valid d = true) {b : Byte} (hb : b ∈ d) :
    b ≠ 0xC0 ∧ b ≠ 0xC1 ∧ b.toNat < 0xF5 := by
  obtain ⟨seqs, rfl, hseqs⟩ := utf8Valid_iff_utf8Text.mp h
  obtain ⟨q, hq, hbq⟩ := List.mem_flatten.mp hb
  obtain ⟨row, hrow, hin⟩ := hseqs q hq
  obtain ⟨r, hr, hlo, hhi⟩ := mem_range_of_inRow hin hbq
  obtain ⟨hC, hF⟩ := utf8Rows_ranges row hrow r hr
  have hC0 : b.toNat ≠ 0xC0 := by omega
  have hC1 : b.toNat ≠ 0xC1 := by omega
  exact ⟨ne_of_apply_ne BitVec.toNat hC0, ne_of_apply_ne BitVec.toNat hC1, by omega⟩

/-- ED begins a sequence with a second byte below A0 only, so no surrogate is valid. -/
theorem afterSequence_surrogate {b : Byte} (h : 0xA0 ≤ b.toNat) (d : List Byte) : afterSequence (0xED :: b :: d) = none := by
  have hb : ¬ b.toNat ≤ 0x9F := by omega
  simp [afterSequence, utf8Table, matchRow, hb]

theorem afterSequence_byteOrderMark (d : List Byte) : afterSequence (0xEF :: 0xBB :: 0xBF :: d) = some d := by
  simp [afterSequence, utf8Table, matchRow]

/-- Settles O34: the fuel is enough, and the row that matches is the only one. -/
theorem utf8ValidIsConcatenationOfRows : Obligations.Utf8ValidIsConcatenationOfRows := by
  refine ⟨fun d => utf8Valid_iff_utf8Text, fun d h b hb => utf8Valid_byte h hb, fun b d hb => ?_, by decide, by decide,
    fun d => ?_⟩
  · rw [Bool.eq_false_iff, Ne, utf8Valid_iff_afterSequence (List.cons_ne_nil _ _), afterSequence_surrogate hb]
    simp
  · rw [Bool.eq_iff_iff, utf8Valid_iff_afterSequence (List.cons_ne_nil _ _), afterSequence_byteOrderMark]
    simp

/-! ### The codec -/

theorem encodeFn_sixteen (p : Params) (d : List Byte) (k : Key) :
    encodeFn p false 16 d k = .ok (b64Enc (pldEnc p.table k d)) := rfl

theorem decodeFn_sixteen (p : Params) (t : List Byte) (k : Key) : decodeFn p false 16 t k = decodeStage p k t := rfl

theorem decodeStage_of_b64Dec_eq_none {p : Params} {k : Key} {t : List Byte} (h : b64Dec t = none) :
    decodeStage p k t = .error .b64 := by
  rw [decodeStage, h]

theorem decodeStage_of_b64Dec_eq_some {p : Params} {k : Key} {t c : List Byte} (h : b64Dec t = some c) :
    decodeStage p k t = if utf8Valid (pldDec p.table k c) then .ok (pldDec p.table k c) else .error .utf8 := by
  rw [decodeStage, h]

/-- DECODE_FN gets the plaintext back, and then makes its UTF-8 check (R178, R179). -/
theorem decodeStage_b64Enc_pldEnc (p : Params) (k : Key) (d : List Byte) :
    decodeStage p k (b64Enc (pldEnc p.table k d)) = if utf8Valid d then .ok d else .error .utf8 := by
  rw [decodeStage_of_b64Dec_eq_some (b64Dec_b64Enc _), pldDec_pldEnc]

theorem codecFn_of_klen_ne {klen : Nat} (h : klen ≠ 16) (p : Params) (d : List Byte) (k : Key) :
    encodeFn p false klen d k = .error .keylen ∧ decodeFn p false klen d k = .error .keylen :=
  ⟨if_pos h, if_pos h⟩

/-- Settles O37: base64 and the payload transform undo each other, so the UTF-8 check decides. -/
theorem codecRoundTripIsExactForUtf8 : Obligations.CodecRoundTripIsExactForUtf8 := by
  intro p k d
  refine ⟨⟨_, encodeFn_sixteen p d k, fun hvalid => ?_, fun hinvalid => ?_⟩, fun klen h => codecFn_of_klen_ne h p d k⟩
  · rw [decodeFn_sixteen, decodeStage_b64Enc_pldEnc, hvalid]
    rfl
  · rw [decodeFn_sixteen, decodeStage_b64Enc_pldEnc, hinvalid]
    rfl

/-! ### The four commands -/

theorem exec_pldenc (s : State) : exec .pldenc s = .next (bufferCommand s (pldEncStage s.params s.key)) := by
  rw [exec, execPldenc]

theorem exec_plddec (s : State) : exec .plddec s = .next (bufferCommand s (pldDecStage s.params s.key)) := by
  rw [exec, execPlddec]

theorem exec_encode (nullin : Bool) (s : State) :
    exec (.encode nullin) s = .next (codecCommand nullin s (encodeStage s.params s.key)) := by
  rw [exec, execEncode]

theorem exec_decode (nullin : Bool) (s : State) :
    exec (.decode nullin) s = .next (codecCommand nullin s (decodeStage s.params s.key)) := by
  rw [exec, execDecode]

/-- A result of a buffer command that is as long as its input leaves OUTLEN = INLEN. -/
theorem outlen_eq_inlen_of_delivers {s t : State} {d : List Byte} (h : Delivers s t d) (hd : d.length = s.input.length) :
    t.outlen = s.inlen := by
  obtain ⟨-, houtlen, -⟩ := h
  exact BitVec.eq_of_toNat_eq (by rw [houtlen, hd, length_input])

theorem pldenc_delivers {s : State} (hfits : s.inlen.toNat ≤ inCap s.params) :
    Delivers s (bufferCommand s (pldEncStage s.params s.key)) (pldEnc s.params.table s.key s.input) :=
  delivers_of_stage_ok pldEncStage_fits hfits rfl

theorem plddec_delivers {s : State} (hfits : s.inlen.toNat ≤ inCap s.params) :
    Delivers s (bufferCommand s (pldDecStage s.params s.key)) (pldDec s.params.table s.key s.input) :=
  delivers_of_stage_ok pldDecStage_fits hfits rfl

/-- Settles O32: the stage of PLDENC cannot fail and keeps the length. -/
theorem pldencResult : Obligations.PldencResult := by
  refine ⟨decode_encode .pldenc, fun s => ⟨_, exec_pldenc s, failsWith_len_of_too_long _, fun hfits => ?_⟩⟩
  exact ⟨pldenc_delivers hfits, outlen_eq_inlen_of_delivers (pldenc_delivers hfits) (length_pldEnc _ _ _)⟩

/-- A result copied from OUTBUF to INBUF with its length is the next command's input. -/
theorem input_of_copied_back {s t u : State} {d : List Byte} (h : Delivers s t d) (hlen : u.inlen = t.outlen)
    (hcopy : ∀ j, j < t.outlen.toNat → u.inbuf.get j = t.outbuf.get j) : u.input = d := by
  obtain ⟨-, houtlen, houtbuf, -⟩ := h
  refine List.ext_getElem? fun j => ?_
  rw [State.input, Memory.getElem?_read, hlen, houtlen]
  by_cases hj : j < d.length
  · simp [hj, hcopy j (by omega), houtbuf]
  · simp [hj]

/-- Settles O33: the stage of PLDDEC cannot fail and keeps the length, and it undoes that of PLDENC. -/
theorem plddecResult : Obligations.PlddecResult := by
  refine ⟨decode_encode .plddec, fun s => ⟨_, exec_plddec s, failsWith_len_of_too_long _, fun hfits => ?_⟩,
    fun s t u hfits hexec hkey hparams hinlen hcopy => ⟨_, exec_plddec u, ?_⟩⟩
  · exact ⟨plddec_delivers hfits, outlen_eq_inlen_of_delivers (plddec_delivers hfits) (length_pldDec _ _ _)⟩
  · obtain rfl := Host.Outcome.next.inj ((exec_pldenc s).symm.trans hexec)
    have houtlen := outlen_eq_inlen_of_delivers (pldenc_delivers hfits) (length_pldEnc _ _ _)
    have hinput := input_of_copied_back (pldenc_delivers hfits) (hinlen.trans houtlen.symm) hcopy
    have hback : pldDec u.params.table u.key u.input = s.input := by rw [hinput, hparams, hkey, pldDec_pldEnc]
    have hdeliver := plddec_delivers (s := u) (by rwa [hinlen, hparams])
    rwa [hback] at hdeliver

theorem failsWith_absent (s : State) (f : List Byte → Except ErrCode (List Byte)) :
    FailsWith s (codecCommand true s f) .absent := failsWith_fail s .absent

theorem failsWith_keylen_of_klen_ne {s : State} (f : List Byte → Except ErrCode (List Byte)) (h : s.klen.toNat ≠ 16) :
    FailsWith s (codecCommand false s f) .keylen := by
  have hklen : s.klen ≠ keyBytes := fun heq => h (congrArg BitVec.toNat heq)
  rw [codecCommand, if_neg Bool.false_ne_true, if_pos hklen]
  exact failsWith_fail s .keylen

/-- With the input present and a key of 16 bytes a codec command is a buffer command. -/
theorem codecCommand_of_klen {s : State} (f : List Byte → Except ErrCode (List Byte)) (h : s.klen.toNat = 16) :
    codecCommand false s f = bufferCommand s f := by
  have hklen : s.klen = keyBytes := BitVec.eq_of_toNat_eq h
  simp [codecCommand, hklen]

theorem encode_delivers {s : State} (hklen : s.klen.toNat = 16) (hfits : s.inlen.toNat ≤ inCap s.params) :
    Delivers s (codecCommand false s (encodeStage s.params s.key)) (b64Enc (pldEnc s.params.table s.key s.input)) := by
  rw [codecCommand_of_klen _ hklen]
  exact delivers_of_stage_ok encodeStage_fits hfits rfl

/-- Settles O35: the checks in the order of R213, and a stage that cannot fail. -/
theorem encodeResult : Obligations.EncodeResult := by
  refine ⟨decode_encode (.encode false), decode_encode (.encode true), fun s =>
    ⟨⟨_, exec_encode true s, failsWith_absent s _⟩, _, exec_encode false s, failsWith_keylen_of_klen_ne _,
      fun hklen hlong => ?_, fun hklen hfits => ?_⟩⟩
  · rw [codecCommand_of_klen _ hklen]
    exact failsWith_len_of_too_long _ hlong
  · obtain ⟨-, houtlen, -⟩ := id (encode_delivers hklen hfits)
    exact ⟨encode_delivers hklen hfits, by rw [houtlen, length_b64Enc, length_pldEnc, length_input]⟩

/-- Settles O36: the checks in the order of R213, then base64, then the UTF-8 check. -/
theorem decodeResult : Obligations.DecodeResult := by
  refine ⟨decode_encode (.decode false), decode_encode (.decode true), fun s =>
    ⟨⟨_, exec_decode true s, failsWith_absent s _⟩, _, exec_decode false s, failsWith_keylen_of_klen_ne _,
      fun hklen hlong => ?_, fun hklen hfits => ?_⟩⟩ <;> rw [codecCommand_of_klen _ hklen]
  · exact failsWith_len_of_too_long _ hlong
  · refine ⟨fun hbad => failsWith_of_stage_error hfits (decodeStage_of_b64Dec_eq_none hbad), fun c hc => ⟨fun hutf8 => ?_,
      fun hutf8 => ?_⟩⟩
    · exact failsWith_of_stage_error hfits (by rw [decodeStage_of_b64Dec_eq_some hc, hutf8]; rfl)
    · exact delivers_of_stage_ok decodeStage_fits hfits (by rw [decodeStage_of_b64Dec_eq_some hc, hutf8]; rfl)

/-- Settles O38: the text copied back is DECODE's input, and its stage gets the plaintext back. -/
theorem decodeGivesBackWhatEncodeTook : Obligations.DecodeGivesBackWhatEncodeTook := by
  intro s t u hklen hfits hexec hkey hparams hklen' hinlen hfits' hcopy
  obtain rfl := Host.Outcome.next.inj ((exec_encode false s).symm.trans hexec)
  have hinput := input_of_copied_back (encode_delivers (congrArg BitVec.toNat hklen) hfits) hinlen hcopy
  have hstage : decodeStage u.params u.key u.input = if utf8Valid s.input then .ok s.input else .error .utf8 := by
    rw [hinput, hparams, hkey, decodeStage_b64Enc_pldEnc]
  refine ⟨_, exec_decode false u, ?_⟩
  rw [codecCommand_of_klen _ (congrArg BitVec.toNat hklen')]
  exact ⟨fun hvalid => delivers_of_stage_ok decodeStage_fits hfits' (by rw [hstage, hvalid]; rfl),
    fun hinvalid => failsWith_of_stage_error hfits' (by rw [hstage, hinvalid]; rfl)⟩

end Sys2Proof.Proofs
end

section
/-! SUPPORT. The statements of spec/44_system.md: NOP changes nothing (R200), ZEROIZE clears every register but CAP and both
buffers (R201). -/

namespace Sys2Proof.Proofs

open Sys2Proof.Machine

/-! ### NOP -/

theorem exec_nop (s : State) : exec .nop s = .next s := rfl

/-- NOP has no NULLIN field (R93), so its word with bit 8 set is illegal (R94). -/
theorem decode_nop_with_nullin : decode 0x00000100 = .illegal .nullinNotTaken :=
  decode_of_instrOfOpcode_eq_some (i := .nop) rfl rfl

/-- Settles O39: NOP is the identity, 0 is its encoding, and bit 8 makes the word illegal. -/
theorem nopKeepsEverything : Obligations.NopKeepsEverything := by
  refine ⟨exec_nop, decode_encode .nop, fun i hi => ?_⟩
  rw [decode_nop_with_nullin] at hi
  cases hi

/-! ### ZEROIZE -/

theorem exec_zeroize (s : State) : exec .zeroize s = .next s.zeroized := rfl

theorem readReg_zeroized_of_ne_cap (s : State) {r : Reg} (hr : r ≠ .cap) : s.zeroized.readReg r = 0 := by
  cases r with
  | cap => exact absurd rfl hr
  | status => exact statusWord_eq_ofNat .ok
  | cmd | inlen | outlen | klen | idx | sbyte | v0 | v1 | k0 | k1 | k2 | k3 => rfl

/-- Settles O40: the state after ZEROIZE, register by register, and its two buffers of zeros. -/
theorem zeroizeClearsEverything : Obligations.ZeroizeClearsEverything := by
  refine ⟨decode_encode .zeroize, fun s => ⟨s.zeroized, exec_zeroize s, s.zeroized_err,
    fun _ hr => readReg_zeroized_of_ne_cap s hr, rfl, s.zeroized_params, fun j => ⟨?_, ?_⟩,
    s.zeroized_draws, s.zeroized_script, s.zeroized_replies⟩⟩
  · rw [State.zeroized_inbuf, Memory.get_zeros]
  · rw [State.zeroized_outbuf, Memory.get_zeros]

end Sys2Proof.Proofs
end

section
/-! SUPPORT. The statements of spec/60_exceptions.md: the code a command ends with (R212), the three writes of a failure (R214),
and that nothing is left over from one command to the next (R217, and spec/10_state.md R33). -/

namespace Sys2Proof.Proofs

open Sys2Proof.Machine Sys2Proof.Claims

/-! ### The failure entry -/

/-- Settles O41: of the ends that a command can have, only the failure entry writes a code other than 0. -/
theorem failureMakesThreeWritesOnly : Obligations.FailureMakesThreeWritesOnly := by
  intro i s t hnop hexec herr
  rcases exec_cases hexec with ⟨hi, -⟩ | ⟨-, b, rfl⟩ | ⟨-, b, rfl⟩ | ⟨-, rfl⟩ | ⟨e, rfl, -, hillegal⟩ | ⟨d, rfl, -⟩
  case inl => exact absurd hi hnop
  case inr.inr.inr.inr.inl => exact ⟨failsWith_fail s e, hillegal⟩
  all_goals exact absurd rfl herr

/-! ### The codes a command can end with -/

theorem eq_b64_of_b64DecStage_error {t : List Byte} {e : ErrCode} (h : b64DecStage t = .error e) : e = .b64 := by
  cases hd : b64Dec t with
  | none => exact (Except.error.inj ((b64DecStage_of_eq_none hd).symm.trans h)).symm
  | some d => cases (b64DecStage_of_eq_some hd).symm.trans h

theorem mem_of_decodeStage_error {p : Params} {k : Key} {t : List Byte} {e : ErrCode} (h : decodeStage p k t = .error e) :
    e ∈ [ErrCode.b64, .utf8] := by
  cases hd : b64Dec t with
  | none =>
    cases (decodeStage_of_b64Dec_eq_none hd).symm.trans h
    decide
  | some c =>
    rw [decodeStage_of_b64Dec_eq_some hd] at h
    split at h <;> cases h
    decide

/-- A buffer command ends with 0, ERR_LEN or a code of its stage. -/
theorem bufferCommand_err_mem {s : State} {f : List Byte → Except ErrCode (List Byte)} {codes : List ErrCode}
    (hstage : ∀ e, f s.input = .error e → e ∈ codes) : (bufferCommand s f).err ∈ .ok :: .len :: codes := by
  rcases bufferCommand_cases s f with ⟨-, h⟩ | ⟨-, d, -, h⟩ | ⟨-, e, he, h⟩ <;> rw [h]
  · simp
  · simp
  · simp [hstage e he]

/-- A codec command with its input present can also end with ERR_KEYLEN. -/
theorem codecCommand_err_mem {s : State} {f : List Byte → Except ErrCode (List Byte)} {codes : List ErrCode}
    (hstage : ∀ e, f s.input = .error e → e ∈ codes) : (codecCommand false s f).err ∈ .ok :: .keylen :: .len :: codes := by
  rcases codecCommand_cases false s f with ⟨hnull, -⟩ | ⟨-, -, h⟩ | ⟨-, -, h⟩
  · cases hnull
  · simp [h]
  · have hbuf := bufferCommand_err_mem hstage
    simp only [h, List.mem_cons] at hbuf ⊢
    tauto

theorem exec_err_mem_codesOf {i : Instr} {s t : State} (hnop : i ≠ .nop) (h : exec i s = .next t) : t.err ∈ codesOf i := by
  cases i with
  | nop => exact absurd rfl hnop
  | blkenc | blkdec | bytenc | bytdec | zeroize =>
    obtain rfl := Host.Outcome.next.inj h
    exact List.mem_singleton_self _
  | pldenc | plddec | b64enc =>
    obtain rfl := Host.Outcome.next.inj h
    exact bufferCommand_err_mem nofun
  | b64dec =>
    obtain rfl := Host.Outcome.next.inj h
    exact bufferCommand_err_mem fun e he => List.mem_singleton.mpr (eq_b64_of_b64DecStage_error he)
  | encode nullin =>
    obtain rfl := Host.Outcome.next.inj h
    cases nullin
    · exact codecCommand_err_mem nofun
    · exact List.mem_singleton_self _
  | decode nullin =>
    obtain rfl := Host.Outcome.next.inj h
    cases nullin
    · exact codecCommand_err_mem fun e he => mem_of_decodeStage_error he
    · exact List.mem_singleton_self _

/-! ### A state for each code -/

/-- A unit with IN_CAP = 4 whose TABLE and K are all zero, so that BYTE_DEC keeps every byte, with the input `d`. -/
def zeroKeyed (klen : Word) (d : List Byte) : State :=
  { State.reset with
    params := ⟨0, Vector.replicate 8 0⟩, klen := klen, inlen := BitVec.ofNat 32 d.length, inbuf := Memory.ofBytes d }

/-- A state in which the cause of the code holds and none that goes before it (R213): no key bytes, an input longer than
IN_CAP, a text of one character, and the text `/w==` of the byte 0xFF, which is not UTF-8. The cause of ERR_ABSENT is in the
command word, so for it and for 0 an empty input does. -/
def stateWithCause : ErrCode → State
  | .ok | .absent | .illegal => zeroKeyed keyBytes []
  | .keylen => zeroKeyed 0 []
  | .len => zeroKeyed keyBytes [0, 0, 0, 0, 0]
  | .b64 => zeroKeyed keyBytes [0x2F]
  | .utf8 => zeroKeyed keyBytes [0x2F, 0x77, 0x3D, 0x3D]

/-- Whether an outcome is a next state with the code `e`. -/
def endsWith (e : ErrCode) : Host.Outcome State Fault Refusal → Bool
  | .next t => t.err = e
  | .fault _ | .refused _ => false

theorem endsWith_iff {e : ErrCode} {o : Host.Outcome State Fault Refusal} :
    endsWith e o = true ↔ ∃ t, o = .next t ∧ t.err = e := by
  cases o <;> simp [endsWith]

/-- Each command run from the state of each code of its row. -/
theorem endsWith_exec_stateWithCause :
    ∀ i ∈ allCommands, ∀ e ∈ codesOf i, endsWith e (exec i (stateWithCause e)) = true := by decide +kernel

/-- Settles O42: NOP is the identity, the codes of a command are those of its checks and its stage, a run of the model reaches
each of them, and an illegal word is the illegal command. -/
theorem eachCommandReportsItsOwnCodes : Obligations.EachCommandReportsItsOwnCodes := by
  refine ⟨exec_nop, fun i s t => exec_err_mem_codesOf, fun i e he => ⟨stateWithCause e, ?_⟩, fun w why s hw => ?_⟩
  · exact endsWith_iff.mp (endsWith_exec_stateWithCause i (mem_allCommands i) e he)
  · exact ⟨_, launch_of_decode_illegal hw s, s.illegalCommand_err⟩

/-! ### What earlier commands left -/

/-- A buffer command reads only its operands, and each of its ends writes ERR, OUTLEN and all of OUTBUF. -/
theorem bufferCommand_earlier_outcome (s : State) (e : ErrCode) (l : Word) (m : Memory)
    (f : List Byte → Except ErrCode (List Byte)) :
    bufferCommand { s with err := e, outlen := l, outbuf := m } f = bufferCommand s f := rfl

theorem codecCommand_earlier_outcome (nullin : Bool) (s : State) (e : ErrCode) (l : Word) (m : Memory)
    (f : List Byte → Except ErrCode (List Byte)) :
    codecCommand nullin { s with err := e, outlen := l, outbuf := m } f = codecCommand nullin s f := rfl

theorem exec_earlier_outcome_of_buffer {i : Instr} (hi : isBufferCommand i = true) (s : State) (e : ErrCode) (l : Word)
    (m : Memory) : exec i { s with err := e, outlen := l, outbuf := m } = exec i s := by
  obtain ⟨f, -, hshape | ⟨nullin, hshape⟩⟩ := exec_eq_bufferCommand_or_codecCommand hi <;> rw [hshape, hshape]
  · rw [bufferCommand_earlier_outcome]
  · rw [codecCommand_earlier_outcome]

/-- A block or byte command writes ERR, and neither reads nor writes OUTLEN and OUTBUF. -/
theorem exec_earlier_outcome_of_not_buffer {i : Instr} (hi : isBufferCommand i = false) (hnop : i ≠ .nop) (hz : i ≠ .zeroize)
    (s : State) (e : ErrCode) (l : Word) (m : Memory) :
    exec i { s with err := e, outlen := l, outbuf := m } =
      mapNext (fun t => { t with outlen := l, outbuf := m }) (exec i s) := by
  cases i with
  | blkenc | blkdec | bytenc | bytdec => rfl
  | nop => exact absurd rfl hnop
  | zeroize => exact absurd rfl hz
  | pldenc | plddec | b64enc | b64dec | encode _ | decode _ => cases hi

/-- Settles O43: the buffer commands, then ZEROIZE, which overwrites all three, then the block and byte commands. -/
theorem outcomeIgnoresEarlierOutcomes : Obligations.OutcomeIgnoresEarlierOutcomes := by
  intro i s t e l m hnop hexec
  split
  case isTrue h =>
    rcases h with hbuf | rfl
    · rw [exec_earlier_outcome_of_buffer hbuf, hexec]
    · exact hexec
  case isFalse h =>
    obtain ⟨hbuf, hz⟩ := not_or.mp h
    rw [exec_earlier_outcome_of_not_buffer (Bool.eq_false_iff.mpr hbuf) hnop hz, hexec, mapNext_next]

end Sys2Proof.Proofs
end

section
/-! SUPPORT. The statements of spec/70_reset_and_hazards.md: the registers after a reset (R240), that every command is defined in
every state (R242), and the end of a run (R255). -/

namespace Sys2Proof.Proofs

open Sys2Proof.Machine Sys2Proof.Claims Sys2Proof.Safety

/-! ### What is not the unit's to write -/

/-- No command touches the model's own fields (log entries 2, 3 and 5). -/
theorem exec_draws_script_replies {i : Instr} {s t : State} (h : exec i s = .next t) :
    t.draws = s.draws ∧ t.script = s.script ∧ t.replies = s.replies := by
  rcases exec_cases h with ⟨-, rfl⟩ | ⟨-, b, rfl⟩ | ⟨-, b, rfl⟩ | ⟨-, rfl⟩ | ⟨e, rfl, -⟩ | ⟨d, rfl, -⟩ <;>
    exact ⟨rfl, rfl, rfl⟩

/-- Settles O9: a command has a next state, and none of its ends touches the four fields. -/
theorem everyCommandCompletesInEveryState : Obligations.EveryCommandCompletesInEveryState := by
  intro i s
  obtain ⟨t, ht⟩ := exists_exec_eq_next i s
  exact ⟨t, ht, exec_params ht, exec_draws_script_replies ht⟩

/-! ### Reset -/

/-- ZEROIZE "is the software way to reach the same register values" (R240). -/
theorem readReg_afterReset (s : State) (r : Reg) : s.afterReset.readReg r = s.zeroized.readReg r := by
  cases r <;> rfl

/-- Settles O52: a reset leaves the registers as ZEROIZE does. -/
theorem resetEventGivesTheResetRegisters : Obligations.ResetEventGivesTheResetRegisters := by
  intro s rest hscript
  refine ⟨(s.pending rest).afterReset, ?_, fun r hr => ?_, rfl, rfl, rfl, rfl⟩
  · rw [step_event hscript, serve_reset]
  · rw [readReg_afterReset, readReg_zeroized_of_ne_cap _ hr]

/-! ### One event of a run -/

theorem exists_serve_eq_next {e : HostEvent} {s : State} (hok : eventOk s.params e = true) : ∃ t, serve e s = .next t := by
  cases e with
  | reset => exact ⟨_, serve_reset s⟩
  | read a n =>
    rcases serve_read_cases s a n with ⟨hnone, -⟩ | ⟨p, r, -, hserve⟩
    · simp [eventOk, hnone] at hok
    · exact ⟨_, hserve⟩
  | write a n v =>
    rcases serve_write_cases s a n v with ⟨hnone, -⟩ | ⟨-, hserve⟩ | ⟨p, -, -, hserve⟩
    · simp [eventOk, hnone] at hok
    · rw [hserve]
      exact exists_launch_eq_next _ _
    · exact ⟨_, hserve⟩

theorem serve_eq_buserr {e : HostEvent} {s : State} (hbad : eventOk s.params e = false) : serve e s = .refused .buserr := by
  cases e with
  | reset => cases hbad
  | read a n => exact serve_read_eq_buserr_iff.mpr (by simpa [eventOk] using hbad)
  | write a n v => exact serve_write_eq_buserr_iff.mpr (by simpa [eventOk] using hbad)

theorem serve_script {e : HostEvent} {s t : State} (h : serve e s = .next t) : t.script = s.script := by
  rcases serve_cases h with ⟨-, rfl⟩ | ⟨a, n, r, -, rfl⟩ | ⟨a, n, v, i, -, -, -, hexec⟩ | ⟨a, n, v, -, rfl⟩ |
    ⟨a, n, v, p, -, -, rfl⟩
  case inr.inr.inl =>
    obtain ⟨-, hscript, -⟩ := exec_draws_script_replies hexec
    exact hscript
  all_goals simp

/-- A reset is not answered, and an access is answered once (R62). -/
theorem serve_replies_length {e : HostEvent} {s t : State} (h : serve e s = .next t) :
    t.replies.length = s.replies.length + if e = .reset then 0 else 1 := by
  rcases serve_cases h with ⟨rfl, rfl⟩ | ⟨a, n, r, rfl, rfl⟩ | ⟨a, n, v, i, rfl, -, -, hexec⟩ | ⟨a, n, v, rfl, rfl⟩ |
    ⟨a, n, v, p, rfl, -, rfl⟩
  case inr.inr.inl =>
    obtain ⟨-, -, hreplies⟩ := exec_draws_script_replies hexec
    simp [hreplies]
  all_goals simp

/-! ### A run -/

theorem run_succ_of_next {M : Host.Core} {s t : M.State} (h : M.step s = .next t) (k : Nat) : M.run (k + 1) s = M.run k t := by
  rw [Host.Core.run, h]

theorem run_succ_of_refused {M : Host.Core} {s : M.State} {r : M.Refusal} (h : M.step s = .refused r) (k : Nat) :
    M.run (k + 1) s = .refused r := by
  rw [Host.Core.run, h]

/-- What is left after an event is judged as it was before, since no event changes the parameters. -/
theorem scriptOk_of_serve_pending {s t : State} {e : HostEvent} {rest : List HostEvent}
    (h : serve e (s.pending rest) = .next t) : scriptOk t = rest.all (eventOk s.params) := by
  rw [scriptOk, serve_script h, serve_params h]
  rfl

theorem run_of_scriptOk {s : State} (hok : scriptOk s = true) :
    ∃ t : State, Host.Core.run core s.script.length s = .next t ∧ runOver t = true ∧
      t.replies.length = s.replies.length + (s.script.filter fun e => decide (e ≠ .reset)).length := by
  induction hs : s.script generalizing s with
  | nil => exact ⟨s, rfl, by rw [runOver, hs]; rfl, rfl⟩
  | cons e rest ih =>
    rw [scriptOk, hs, List.all_cons, Bool.and_eq_true] at hok
    obtain ⟨he, hrest⟩ := hok
    obtain ⟨u, hu⟩ : ∃ u, serve e (s.pending rest) = .next u := exists_serve_eq_next he
    obtain ⟨t, hrun, hover, hreplies⟩ := ih ((scriptOk_of_serve_pending hu).trans hrest) (serve_script hu)
    refine ⟨t, (run_succ_of_next (M := core) ((step_event hs).trans hu) _).trans hrun, hover, ?_⟩
    rw [hreplies, serve_replies_length hu, State.pending_replies, List.filter_cons]
    by_cases hreset : e = .reset
    · simp [hreset]
    · simp [hreset, Nat.add_assoc, Nat.add_comm 1]

theorem run_of_not_scriptOk {s : State} (hbad : scriptOk s = false) :
    Host.Core.run core s.script.length s = .refused Refusal.buserr := by
  induction hs : s.script generalizing s with
  | nil =>
    rw [scriptOk, hs] at hbad
    cases hbad
  | cons e rest ih =>
    rw [scriptOk, hs, List.all_cons] at hbad
    cases he : eventOk s.params e with
    | false => exact run_succ_of_refused (M := core) ((step_event hs).trans (serve_eq_buserr he)) _
    | true =>
      rw [he, Bool.true_and] at hbad
      obtain ⟨u, hu⟩ : ∃ u, serve e (s.pending rest) = .next u := exists_serve_eq_next he
      exact (run_succ_of_next (M := core) ((step_event hs).trans hu) _).trans
        (ih ((scriptOk_of_serve_pending hu).trans hbad) (serve_script hu))

/-- Settles O60, by induction on the events pending: one step serves one, and the first illegal access ends the run. -/
theorem scriptsRunToTheirEndOrGoWrong : Obligations.ScriptsRunToTheirEndOrGoWrong := fun _ =>
  ⟨run_of_scriptOk, run_of_not_scriptOk⟩

end Sys2Proof.Proofs
end
